-- ==== Sys2Proof/Word.lean ====
section
/-! DEFINITION. The words of the block: bytes, byte addresses, command words and the seven fields of a command word
(30_encoding.md R30, 20_memory.md R20). -/

namespace Sys2Proof

/-- One byte of memory (20_memory.md R20: "One address names one 8-bit byte"). -/
abbrev Byte := BitVec 8

/-- A byte address of `AW` = 32 bits (00_scope.md R4, 20_memory.md R20). -/
abbrev Addr := BitVec 32

/-- A command word of `CMDW` = 96 bits (30_encoding.md R30). -/
abbrev CommandWord := BitVec 96

/-- The seven fields of a command word, most significant first (30_encoding.md R30). The block's operand latches hold
one of these (10_state.md R13). -/
structure CommandFields where
  /-- `OPC`, bits 95:88. -/
  opc : BitVec 8
  /-- `RSV`, bits 87:80. -/
  rsv : BitVec 8
  /-- `C`, bits 79:64. -/
  c : BitVec 16
  /-- `A3`, bits 63:48. -/
  a3 : BitVec 16
  /-- `A2`, bits 47:32. -/
  a2 : BitVec 16
  /-- `A1`, bits 31:16. -/
  a1 : BitVec 16
  /-- `A0`, bits 15:0. -/
  a0 : BitVec 16
  deriving DecidableEq, Repr, Inhabited

end Sys2Proof
end

