-- ==== Sys2Proof/Syntax.lean ====
section
/-! DEFINITION. The seven commands of B2XR-1 with their operands (30_encoding.md R31, R32; opcode_table.json). -/

namespace Sys2Proof

/-- The buffer's pixel format, the one bit `BUF_DEPTH` (10_state.md R11): 0 is Depth16, 1 is Depth24. -/
inductive Depth where
  | d16
  | d24
  deriving DecidableEq, Repr, Inhabited

/-- A command. Coordinates are exact integers and radii exact natural numbers (00_scope.md R6, 30_encoding.md R31);
`Instr.wellFormed` holds the ranges a command word can carry. Base, dimensions, stride and color are words. -/
inductive Instr where
  /-- SETBASE `base` (40_config_clear.md R40). -/
  | setbase (base : Addr)
  /-- SETGEOM `width, height, stride, depth` (40_config_clear.md R41). -/
  | setgeom (width height : BitVec 16) (stride : BitVec 32) (depth : Depth)
  /-- CLEAR (40_config_clear.md R42). -/
  | clear
  /-- PLOT `x, y, c` (41_pack_plot.md R55). -/
  | plot (x y : Int) (c : BitVec 16)
  /-- LINE `x0, y0, x1, y1, c` (42_line.md R60). -/
  | line (x0 y0 x1 y1 : Int) (c : BitVec 16)
  /-- ELLIPSE `cx, cy, rx, ry, c` (43_ellipse.md R70). -/
  | ellipse (cx cy : Int) (rx ry : Nat) (c : BitVec 16)
  /-- FELLIPSE `cx, cy, rx, ry, c` (43_ellipse.md R71). -/
  | fellipse (cx cy : Int) (rx ry : Nat) (c : BitVec 16)
  deriving DecidableEq, Repr, Inhabited

end Sys2Proof
end

