-- ==== Sys2Proof/Machine/Registers.lean ====
section
/-! DEFINITION. The register groups of the block, as the spec lists them: the buffer descriptor (10_state.md R11) and
the working registers of the two rasterizers (10_state.md R14, R15). -/

namespace Sys2Proof.Machine

/-- The buffer descriptor registers (10_state.md R11). -/
structure Descriptor where
  /-- `BUF_BASE`, the byte address of native pixel (0, 0). -/
  base : Addr
  /-- `BUF_WIDTH`, in native pixels. -/
  width : BitVec 16
  /-- `BUF_HEIGHT`, in native pixels. -/
  height : BitVec 16
  /-- `BUF_STRIDE`, bytes between rows. -/
  stride : BitVec 32
  /-- `BUF_DEPTH`. -/
  depth : Depth
  deriving DecidableEq, Repr, Inhabited

/-- The line working registers (10_state.md R14). Coordinates and counts are exact (00_scope.md R6); only `acc` has an
architectural width, and `step` fits 16 bits (42_line.md R68). -/
structure LineRegs where
  x0 : Int
  y0 : Int
  x1 : Int
  y1 : Int
  /-- +1 or -1. -/
  xdir : Int
  dx : Nat
  dy : Nat
  /-- The error accumulator: "a 16-bit value that intentionally overflows/wraps". -/
  acc : BitVec 16
  /-- `error_step`. -/
  step : BitVec 16
  /-- The remaining repeat count. -/
  cnt : Nat
  deriving DecidableEq, Repr, Inhabited

/-- The ellipse working registers (10_state.md R15), all exact (00_scope.md R6). The previous-step registers hold
`NONE` or a value (43_ellipse.md R74). -/
structure EllipseRegs where
  cx : Int
  cy : Int
  rx : Nat
  ry : Nat
  /-- The larger radius, the divisor. -/
  m : Nat
  /-- The other radius. -/
  n : Nat
  ix : Int
  iy : Int
  h : Int
  i : Int
  j : Int
  k : Int
  oh : Option Int
  oi : Option Int
  oj : Option Int
  ok : Option Int
  deriving DecidableEq, Repr, Inhabited

end Sys2Proof.Machine
end

