-- ==== Sys2Proof/Config.lean ====
section
/-! DEFINITION. What the spec leaves free, as constants without a body: nothing in Lean can evaluate them, so a
statement holds for every value of them. Each is applied to the state's draw counter (log 6, 7, 8). The parameters the
spec gives a B2XR-1 value (00_scope.md R4) stand in Machine/Params.lean. -/

namespace Sys2Proof.Config

/-- What the operand latches hold once a command is over: "any value" (93_implementation_defined.md U12 (a); log 6). -/
opaque leftoverLatch : Nat → CommandFields

/-- What the line working registers hold once a command is over (93_implementation_defined.md U12 (a); log 6). -/
opaque leftoverLine : Nat → Machine.LineRegs

/-- What the ellipse working registers hold once a command is over (93_implementation_defined.md U12 (a); log 6). -/
opaque leftoverEllipse : Nat → Machine.EllipseRegs

/-- How many write events of an abandoned command a reset while `BUSY = 1` leaves performed: any number; one beyond
the command's last event means all of them (70_reset_and_hazards.md R121, 93_implementation_defined.md U4; log 8). -/
opaque abandonedPrefix : Nat → Nat

end Sys2Proof.Config
end

