-- ==== Sys2Proof/Machine/Params.lean ====
section
/-! DEFINITION. The implementation parameters of 00_scope.md R4 at their B2XR-1 values (log 10). -/

namespace Sys2Proof.Machine

/-- The order of a pixel's bytes in memory (20_memory.md R21). -/
inductive ByteOrder where
  | little
  | big
  deriving DecidableEq, Repr, Inhabited

/-- `BYTE_ORDER`: little in B2XR-1 (00_scope.md R4). -/
def byteOrder : ByteOrder := .little

/-- `ELL_SHIFT`: the ellipse's fixed-point scale is 2 to this power (00_scope.md R4). -/
def ellShift : Nat := 6

/-- `ELL_BIAS`: added before the shift by `ELL_SHIFT` (00_scope.md R4, 93_implementation_defined.md U9). -/
def ellBias : Int := 8

/-- `PACK16`, the 16-bit packer (41_pack_plot.md R51): the five bits `c[7:3]` in all three channels of a 5-6-5 pixel,
in the upper five bits of the middle one. -/
def pack16 (c : BitVec 16) : BitVec 16 :=
  let v : BitVec 16 := (c.extractLsb' 3 5).setWidth 16
  (v <<< 11) ||| (v <<< 6) ||| v

end Sys2Proof.Machine
end

