-- ==== Sys2Proof/WellFormed.lean ====
section
/-! DEFINITION. The operand ranges of 30_encoding.md R31: what a command word can carry. -/

namespace Sys2Proof

/-- The range of a coordinate operand: `sext_16` of a 16-bit field (30_encoding.md R31). -/
def coordInRange (v : Int) : Bool := decide (-32768 ≤ v) && decide (v ≤ 32767)

/-- The range of a radius operand: `zext_16` of a 16-bit field (30_encoding.md R31). -/
def radiusInRange (r : Nat) : Bool := decide (r ≤ 65535)

/-- Every operand lies in the range of 30_encoding.md R31; an operand outside it is "an assembly error, not a
truncation" (30_encoding.md R36). Words need no check: their type is their range. -/
def Instr.wellFormed : Instr → Bool
  | .setbase _ => true
  | .setgeom _ _ _ _ => true
  | .clear => true
  | .plot x y _ => coordInRange x && coordInRange y
  | .line x0 y0 x1 y1 _ => coordInRange x0 && coordInRange y0 && coordInRange x1 && coordInRange y1
  | .ellipse cx cy rx ry _ => coordInRange cx && coordInRange cy && radiusInRange rx && radiusInRange ry
  | .fellipse cx cy rx ry _ => coordInRange cx && coordInRange cy && radiusInRange rx && radiusInRange ry

end Sys2Proof
end

