-- ==== Sys2Proof/Decode.lean ====
section
/-! DEFINITION. The decoder of a command word, the encoder beside it, and the assembly text (30_encoding.md R30 to
R36). The decoder is total: every one of the 2^96 words is a command or exactly one of the two decode faults (R34). -/

namespace Sys2Proof

/-- The two faults, both raised at decode (60_exceptions.md R100). -/
inductive DecodeFault where
  /-- `OPC` is none of the seven opcodes (60_exceptions.md R101). -/
  | illegalOpcode
  /-- A must-be-zero bit of a word with a legal `OPC` is 1 (60_exceptions.md R102). -/
  | reservedNonzero
  deriving DecidableEq, Repr, Inhabited

/-- The rows of the opcode map (30_encoding.md R32). -/
inductive Opcode where
  | setbase
  | setgeom
  | clear
  | plot
  | line
  | ellipse
  | fellipse
  deriving DecidableEq, Repr, Inhabited

/-- The `OPC` value of a row (30_encoding.md R32). -/
def Opcode.code : Opcode → BitVec 8
  | .setbase => 0x01#8
  | .setgeom => 0x02#8
  | .clear => 0x03#8
  | .plot => 0x10#8
  | .line => 0x11#8
  | .ellipse => 0x12#8
  | .fellipse => 0x13#8

/-- The row an `OPC` value names, if any; every other value is illegal (30_encoding.md R34, R35). -/
def opcodeOf (b : BitVec 8) : Option Opcode :=
  match b.toNat with
  | 0x01 => some .setbase
  | 0x02 => some .setgeom
  | 0x03 => some .clear
  | 0x10 => some .plot
  | 0x11 => some .line
  | 0x12 => some .ellipse
  | 0x13 => some .fellipse
  | _ => none

/-- The column "match" of 30_encoding.md R32. -/
def Opcode.matchWord : Opcode → CommandWord
  | .setbase => 0x010000000000000000000000#96
  | .setgeom => 0x020000000000000000000000#96
  | .clear => 0x030000000000000000000000#96
  | .plot => 0x100000000000000000000000#96
  | .line => 0x110000000000000000000000#96
  | .ellipse => 0x120000000000000000000000#96
  | .fellipse => 0x130000000000000000000000#96

/-- The column "mask" of 30_encoding.md R32. -/
def Opcode.maskWord : Opcode → CommandWord
  | .setbase => 0xFFFFFFFFFFFFFFFF00000000#96
  | .setgeom => 0xFFFFFFFE0000000000000000#96
  | .clear => 0xFFFFFFFFFFFFFFFFFFFFFFFF#96
  | .plot => 0xFFFF0000FFFFFFFF00000000#96
  | .line => 0xFFFF00000000000000000000#96
  | .ellipse => 0xFFFF00000000000000000000#96
  | .fellipse => 0xFFFF00000000000000000000#96

/-- The fields of a word (30_encoding.md R30). -/
def CommandFields.ofWord (w : CommandWord) : CommandFields where
  opc := w.extractLsb' 88 8
  rsv := w.extractLsb' 80 8
  c := w.extractLsb' 64 16
  a3 := w.extractLsb' 48 16
  a2 := w.extractLsb' 32 16
  a1 := w.extractLsb' 16 16
  a0 := w.extractLsb' 0 16

/-- The word of seven fields (30_encoding.md R30, R33). -/
def CommandFields.toWord (f : CommandFields) : CommandWord :=
  f.opc ++ f.rsv ++ f.c ++ f.a3 ++ f.a2 ++ f.a1 ++ f.a0

/-- The depth operand `C[0]` (30_encoding.md R31). -/
def depthOfBit (b : Bool) : Depth :=
  match b with
  | false => .d16
  | true => .d24

/-- The 16-bit field `C` of a depth operand: bit 0 is the depth, the other bits are zero (30_encoding.md R31, R32). -/
def Depth.field : Depth → BitVec 16
  | .d16 => 0#16
  | .d24 => 1#16

/-- The command of a row with the operands of 30_encoding.md R31 taken from the fields. -/
def Opcode.instr (op : Opcode) (f : CommandFields) : Instr :=
  match op with
  | .setbase => .setbase (f.a1 ++ f.a0)
  | .setgeom => .setgeom f.a0 f.a1 (f.a3 ++ f.a2) (depthOfBit (f.c.getLsbD 0))
  | .clear => .clear
  | .plot => .plot f.a0.toInt f.a1.toInt f.c
  | .line => .line f.a0.toInt f.a1.toInt f.a2.toInt f.a3.toInt f.c
  | .ellipse => .ellipse f.a0.toInt f.a1.toInt f.a2.toNat f.a3.toNat f.c
  | .fellipse => .fellipse f.a0.toInt f.a1.toInt f.a2.toNat f.a3.toNat f.c

/-- Decode of an accepted word, in the order of 30_encoding.md R34: the opcode test, then the must-be-zero test. -/
def decode (w : CommandWord) : Except DecodeFault Instr :=
  match opcodeOf (CommandFields.ofWord w).opc with
  | none => .error .illegalOpcode
  | some op =>
    if w &&& op.maskWord = op.matchWord then .ok (op.instr (CommandFields.ofWord w))
    else .error .reservedNonzero

/-- The row of a command (30_encoding.md R32). -/
def Instr.opcode : Instr → Opcode
  | .setbase _ => .setbase
  | .setgeom _ _ _ _ => .setgeom
  | .clear => .clear
  | .plot _ _ _ => .plot
  | .line _ _ _ _ _ => .line
  | .ellipse _ _ _ _ _ => .ellipse
  | .fellipse _ _ _ _ _ => .fellipse

/-- The fields of a command: each 16-bit field holds its operand mod 65536, `RSV` and every unused field are zero
(30_encoding.md R33). -/
def Instr.fields (i : Instr) : CommandFields :=
  match i with
  | .setbase base =>
    { opc := i.opcode.code, rsv := 0, c := 0, a3 := 0, a2 := 0,
      a1 := base.extractLsb' 16 16, a0 := base.extractLsb' 0 16 }
  | .setgeom width height stride depth =>
    { opc := i.opcode.code, rsv := 0, c := depth.field, a3 := stride.extractLsb' 16 16,
      a2 := stride.extractLsb' 0 16, a1 := height, a0 := width }
  | .clear => { opc := i.opcode.code, rsv := 0, c := 0, a3 := 0, a2 := 0, a1 := 0, a0 := 0 }
  | .plot x y c =>
    { opc := i.opcode.code, rsv := 0, c := c, a3 := 0, a2 := 0, a1 := BitVec.ofInt 16 y, a0 := BitVec.ofInt 16 x }
  | .line x0 y0 x1 y1 c =>
    { opc := i.opcode.code, rsv := 0, c := c, a3 := BitVec.ofInt 16 y1, a2 := BitVec.ofInt 16 x1,
      a1 := BitVec.ofInt 16 y0, a0 := BitVec.ofInt 16 x0 }
  | .ellipse cx cy rx ry c =>
    { opc := i.opcode.code, rsv := 0, c := c, a3 := BitVec.ofNat 16 ry, a2 := BitVec.ofNat 16 rx,
      a1 := BitVec.ofInt 16 cy, a0 := BitVec.ofInt 16 cx }
  | .fellipse cx cy rx ry c =>
    { opc := i.opcode.code, rsv := 0, c := c, a3 := BitVec.ofNat 16 ry, a2 := BitVec.ofNat 16 rx,
      a1 := BitVec.ofInt 16 cy, a0 := BitVec.ofInt 16 cx }

/-- The word of a command (30_encoding.md R33). -/
def encode (i : Instr) : CommandWord := i.fields.toWord

/-- Assembly of one command: a range error is no word, never a truncation (30_encoding.md R36). -/
def assemble (i : Instr) : Option CommandWord := if i.wellFormed then some (encode i) else none

/-- The depth operand in assembly text (30_encoding.md R36). -/
def Depth.asm : Depth → String
  | .d16 => "d16"
  | .d24 => "d24"

/-- The assembly text of a command, integers in decimal (30_encoding.md R36). -/
def Instr.asm : Instr → String
  | .setbase base => "setbase " ++ toString base.toNat
  | .setgeom width height stride depth =>
    "setgeom " ++ toString width.toNat ++ ", " ++ toString height.toNat ++ ", " ++ toString stride.toNat ++ ", " ++
      depth.asm
  | .clear => "clear"
  | .plot x y c => "plot " ++ toString x ++ ", " ++ toString y ++ ", " ++ toString c.toNat
  | .line x0 y0 x1 y1 c =>
    "line " ++ toString x0 ++ ", " ++ toString y0 ++ ", " ++ toString x1 ++ ", " ++ toString y1 ++ ", " ++
      toString c.toNat
  | .ellipse cx cy rx ry c =>
    "ellipse " ++ toString cx ++ ", " ++ toString cy ++ ", " ++ toString rx ++ ", " ++ toString ry ++ ", " ++
      toString c.toNat
  | .fellipse cx cy rx ry c =>
    "fellipse " ++ toString cx ++ ", " ++ toString cy ++ ", " ++ toString rx ++ ", " ++ toString ry ++ ", " ++
      toString c.toNat

/-- The 96-bit command word of a table row's `nbits` low bits `w` (bits above `nbits` are 0). A command word is one
unit of 96 bits (30_encoding.md R30), so the table's bit 0 is the word's bit 0. -/
def tableWord (nbits w : Nat) : CommandWord := BitVec.ofNat 96 (w % 2 ^ nbits)

/-- The command the decoder reads from a table row's bits. -/
def decodeTableWord (nbits w : Nat) : Option Instr :=
  match decode (tableWord nbits w) with
  | .ok i => some i
  | .error _ => none

end Sys2Proof
end

