-- ==== Sys2Proof/Machine/State.lean ====
section
/-! DEFINITION. The state of the machine: everything the spec gives the block (10_state.md R10 to R19), the platform's
memory it writes (20_memory.md R20), its command port (30_encoding.md R37) and the host's coming actions
(00_scope.md R3). Plain data. -/

namespace Sys2Proof.Machine

/-- Memory as (address, byte) pairs, addresses strictly rising; an address that is not listed holds no value the model
knows (log 9). -/
abbrev Memory := List Host.Cell

/-- One action of the host (00_scope.md R3: it "presents commands, asserts reset, reads STATUS, and owns the memory
whenever the engine is idle"). Reading needs no action: it changes nothing (10_state.md R12, log 20). -/
inductive HostEvent where
  /-- Present a word at the command port (30_encoding.md R37); it may be any 96 bits. -/
  | present (w : CommandWord)
  /-- Raise reset (70_reset_and_hazards.md R120). -/
  | reset
  /-- Write one byte of memory (20_memory.md R28: "While `BUSY = 0` the host may read and write the buffer freely"). -/
  | store (a : Addr) (v : Byte)
  /-- Do nothing while the engine makes one move (log 2). -/
  | wait
  deriving DecidableEq, Repr, Inhabited

structure State where
  /-- The buffer descriptor registers (10_state.md R11). -/
  buf : Descriptor
  /-- `STATUS.BUSY` (10_state.md R12). -/
  busy : Bool
  /-- `STATUS.FAULT` (10_state.md R12). -/
  fault : Bool
  /-- `STATUS.CAUSE` (10_state.md R12). -/
  cause : BitVec 4
  /-- The operand latches, which hold the accepted word until retirement (10_state.md R13, 30_encoding.md R37; log 4). -/
  latch : CommandFields
  /-- The line working registers (10_state.md R14). -/
  line : LineRegs
  /-- The ellipse working registers (10_state.md R15). -/
  ell : EllipseRegs
  /-- The platform's memory (20_memory.md R20). -/
  mem : Memory
  /-- The word the host holds at the command port, if any (30_encoding.md R37; log 3). -/
  port : Option CommandWord
  /-- The host's coming actions, in order (10_state.md R16; the model's own field, log 2). -/
  host : List HostEvent
  /-- How many free values have been drawn (the model's own field, log 7). -/
  draws : Nat
  deriving DecidableEq, Repr

/-- Why a step of the model stops. The block's own two faults are no stops: taking one is a next state
(60_exceptions.md R104). -/
inductive Fault where
  /-- The ellipse stepping loop did not end within its step budget. Raised by execEllipse and execFellipse only. No
  state reaches it (the loop ends, 43_ellipse.md R78 (d)); it stands there so that a budget that were too small could
  never pass for a drawn ellipse. Safe: the model stops where the hardware goes on (log 13). -/
  | ellipseUnfinished
  deriving DecidableEq, Repr

/-- Why the model gives an instruction no meaning. -/
inductive Refusal where
  /-- Raised by `exec` for an instruction not reached yet; safe. No arm raises it: all seven have their meaning. -/
  | notModelled (mnemonic : String)
  deriving DecidableEq, Repr

/-- The machine right after reset (10_state.md R19, 70_reset_and_hazards.md R120): descriptor and status zero, nothing
presented, no memory written. The latches and working registers are unspecified there; the zeros are the model's
(log 5). -/
def State.reset : State where
  buf := { base := 0, width := 0, height := 0, stride := 0, depth := .d16 }
  busy := false
  fault := false
  cause := 0
  latch := { opc := 0, rsv := 0, c := 0, a3 := 0, a2 := 0, a1 := 0, a0 := 0 }
  line := { x0 := 0, y0 := 0, x1 := 0, y1 := 0, xdir := 0, dx := 0, dy := 0, acc := 0, step := 0, cnt := 0 }
  ell :=
    { cx := 0, cy := 0, rx := 0, ry := 0, m := 0, n := 0, ix := 0, iy := 0, h := 0, i := 0, j := 0, k := 0,
      oh := none, oi := none, oj := none, ok := none }
  mem := []
  port := none
  host := []
  draws := 0

end Sys2Proof.Machine
end

