-- ==== Sys2Proof/Machine/Ops.lean ====
section
/-! DEFINITION. The named operations: memory (20_memory.md), acceptance and retirement (30_encoding.md R37), fault
entry (60_exceptions.md R104) and the only way out of a fault, reset (70_reset_and_hazards.md R120, R121). -/

namespace Sys2Proof.Machine

/-! ## Memory -/

/-- The byte at an address; `none` where nothing has been written (log 9). The host's read (20_memory.md R28): the
block never reads. -/
def Memory.read (m : Memory) (a : Nat) : Option Byte :=
  match m with
  | [] => none
  | c :: rest => if c.1 = a then some c.2 else Memory.read rest a

/-- The byte at an address becomes `v`; the pairs stay in rising order. -/
def Memory.write (m : Memory) (a : Nat) (v : Byte) : Memory :=
  match m with
  | [] => [(a, v)]
  | c :: rest =>
    if a < c.1 then (a, v) :: c :: rest
    else if a = c.1 then (a, v) :: rest
    else c :: Memory.write rest a v

/-- The canonical form above a bound: addresses at least `lo`, strictly rising, all in the 32-bit space. -/
def Memory.wfFrom (lo : Nat) (m : Memory) : Bool :=
  match m with
  | [] => true
  | c :: rest => decide (lo ≤ c.1) && decide (c.1 < 2 ^ 32) && Memory.wfFrom (c.1 + 1) rest

/-- The canonical form of memory. Every byte is a value memory may list, since an unlisted address has none. -/
def Memory.wf (m : Memory) : Bool := Memory.wfFrom 0 m

/-- One write event `MemWrite(addr, n, v)` (00_scope.md R7, 20_memory.md R21). -/
structure WriteEvent where
  addr : Addr
  n : Nat
  v : BitVec 32
  deriving DecidableEq, Repr, Inhabited

/-- Byte `b` of an `n`-byte value, in the given order (20_memory.md R21). -/
def byteOf (o : ByteOrder) (n : Nat) (v : BitVec 32) (b : Nat) : Byte :=
  match o with
  | .little => v.extractLsb' (8 * b) 8
  | .big => v.extractLsb' (8 * (n - 1 - b)) 8

/-- The first `k` bytes of a write event, each at its address mod 2^32 (20_memory.md R21, R25). -/
def WriteEvent.bytesInto (e : WriteEvent) (k : Nat) (m : Memory) : Memory :=
  match k with
  | 0 => m
  | b + 1 => Memory.write (e.bytesInto b m) ((e.addr.toNat + b) % 2 ^ 32) (byteOf byteOrder e.n e.v b)

/-- A write event performed whole (20_memory.md R24). -/
def WriteEvent.perform (e : WriteEvent) (m : Memory) : Memory := e.bytesInto e.n m

/-- Write events performed in order (20_memory.md R27 (a)). -/
def performAll (es : List WriteEvent) (m : Memory) : Memory :=
  match es with
  | [] => m
  | e :: rest => performAll rest (e.perform m)

/-- The byte addresses a write event writes (20_memory.md R21). -/
def WriteEvent.covers (e : WriteEvent) (a : Nat) : Prop := ∃ b, b < e.n ∧ a = (e.addr.toNat + b) % 2 ^ 32

/-! ## The course of a command -/

/-- The block performs write events; nothing else of it changes. -/
def State.perform (s : State) (es : List WriteEvent) : State := { s with mem := performAll es s.mem }

/-- The latches and working registers are left with any value (93_implementation_defined.md U12 (a); log 6). -/
def State.scrub (s : State) : State :=
  { s with
    latch := Config.leftoverLatch s.draws
    line := Config.leftoverLine s.draws
    ell := Config.leftoverEllipse s.draws
    draws := s.draws + 1 }

/-- Acceptance: atomically the word is latched and `BUSY <- 1`; it leaves the port (30_encoding.md R37). -/
def State.accept (s : State) (w : CommandWord) : State :=
  { s with latch := CommandFields.ofWord w, busy := true, port := none }

/-- Retirement: `BUSY <- 0` (30_encoding.md R37). -/
def State.retire (s : State) : State := { s.scrub with busy := false }

/-! ## Taking a fault, and the way out of one -/

/-- The code `STATUS.CAUSE` holds after a fault (60_exceptions.md R100). -/
def DecodeFault.code : DecodeFault → BitVec 4
  | .illegalOpcode => 1#4
  | .reservedNonzero => 2#4

/-- `raise Fault(cause)`, fault entry (60_exceptions.md R104): `FAULT <- 1`, `CAUSE <- cause`, `BUSY <- 0`, the
faulting word is discarded, nothing else changes. -/
def State.raiseFault (s : State) (f : DecodeFault) : State :=
  { s.scrub with fault := true, cause := DecodeFault.code f, busy := false }

/-- The reset event (70_reset_and_hazards.md R120): descriptor and status take their reset values, latches and working
registers become unspecified, memory and the word at the port stay. If a command was executing, some prefix of its
write events `pending` has been performed and the rest never is (70_reset_and_hazards.md R121; log 8). -/
def State.takeReset (s : State) (pending : List WriteEvent) : State :=
  { (s.perform (if s.busy then pending.take (Config.abandonedPrefix s.draws) else [])).scrub with
    buf := State.reset.buf
    busy := false
    fault := false
    cause := 0 }

end Sys2Proof.Machine
end

