-- ==== Sys2Proof/Machine/Operands.lean ====
section
/-! DEFINITION. What every drawing command shares: the pixel color packer (41_pack_plot.md R50 to R52), pixel
addressing (20_memory.md R22) and the 2x point plot (41_pack_plot.md R53, R54). -/

namespace Sys2Proof.Machine

/-- `Pack24` (41_pack_plot.md R52): the low byte of the color in three channels, the fourth byte 0. -/
def pack24 (c : BitVec 16) : BitVec 32 :=
  let g : BitVec 32 := (c.extractLsb' 0 8).setWidth 32
  (g <<< 16) ||| (g <<< 8) ||| g

/-- `Pack` (41_pack_plot.md R50), as a number of at most 32 bits: a Depth16 pixel has zeros above its 16 bits. -/
def pack (depth : Depth) (c : BitVec 16) : BitVec 32 :=
  match depth with
  | .d16 => (pack16 c).setWidth 32
  | .d24 => pack24 c

/-- Bytes per native pixel (20_memory.md R22). -/
def bytesPerPixel (depth : Depth) : Nat :=
  match depth with
  | .d16 => 2
  | .d24 => 4

/-- `PixAddr(px, py)` (20_memory.md R22): exact, then mod 2^32. -/
def Descriptor.pixAddr (d : Descriptor) (px py : Nat) : Addr :=
  BitVec.ofNat 32 (d.base.toNat + py * d.stride.toNat + px * bytesPerPixel d.depth)

/-- `XLIM` (41_pack_plot.md R53). -/
def Descriptor.xlim (d : Descriptor) : Int := ((d.width.toNat / 2 : Nat) : Int) - 1

/-- `YLIM` (41_pack_plot.md R53). -/
def Descriptor.ylim (d : Descriptor) : Int := ((d.height.toNat / 2 : Nat) : Int) - 1

/-- A logical point (00_scope.md, glossary). -/
structure Point where
  x : Int
  y : Int
  deriving DecidableEq, Repr, Inhabited

/-- The bounds test of a plot event (41_pack_plot.md R53). -/
def Descriptor.dropped (d : Descriptor) (p : Point) : Bool :=
  decide (p.x < 0) || decide (p.y < 0) || decide (d.xlim ≤ p.x) || decide (d.ylim ≤ p.y)

/-- One native pixel write (20_memory.md R24). -/
def Descriptor.pixelWrite (d : Descriptor) (c : BitVec 16) (px py : Nat) : WriteEvent :=
  { addr := d.pixAddr px py, n := bytesPerPixel d.depth, v := pack d.depth c }

/-- The write events of the plot event `Plot(x, y, c)`: none if it is dropped (41_pack_plot.md R53), else the four
native pixels in the order of 41_pack_plot.md R54. -/
def Descriptor.plotWrites (d : Descriptor) (c : BitVec 16) (p : Point) : List WriteEvent :=
  if d.dropped p then []
  else
    [d.pixelWrite c (2 * p.x.toNat) (2 * p.y.toNat),
      d.pixelWrite c (2 * p.x.toNat + 1) (2 * p.y.toNat),
      d.pixelWrite c (2 * p.x.toNat) (2 * p.y.toNat + 1),
      d.pixelWrite c (2 * p.x.toNat + 1) (2 * p.y.toNat + 1)]

/-- The write events of a sequence of plot events of one color (00_scope.md R8). -/
def Descriptor.drawWrites (d : Descriptor) (c : BitVec 16) (ps : List Point) : List WriteEvent :=
  ps.flatMap (d.plotWrites c)

/-- The write events of CLEAR (40_config_clear.md R42): one zero byte each, rows then bytes ascending. -/
def Descriptor.clearWrites (d : Descriptor) : List WriteEvent :=
  (List.range d.height.toNat).flatMap fun r =>
    (List.range d.stride.toNat).map fun b =>
      { addr := BitVec.ofNat 32 (d.base.toNat + r * d.stride.toNat + b), n := 1, v := 0 }

end Sys2Proof.Machine
end

