-- ==== Sys2Proof/Machine/Clear.lean ====
section
/-! DEFINITION. The command CLEAR (40_config_clear.md R42). -/

namespace Sys2Proof.Machine

/-- CLEAR: every byte of every row of `BUF_STRIDE` bytes becomes 0 (40_config_clear.md R42). -/
def execClear (s : State) : Host.Outcome State Fault Refusal :=
  .next (s.perform s.buf.clearWrites).retire

end Sys2Proof.Machine
end

