-- ==== Sys2Proof/Machine/Configure.lean ====
section
/-! DEFINITION. The configuration commands SETBASE and SETGEOM (40_config_clear.md R40, R41). Neither issues a write
event. -/

namespace Sys2Proof.Machine

/-- SETBASE: `BUF_BASE <- {A1, A0}`, the other descriptor registers unchanged (40_config_clear.md R40). -/
def execSetbase (base : Addr) (s : State) : Host.Outcome State Fault Refusal :=
  .next { s with buf := { s.buf with base := base } }.retire

/-- SETGEOM: four registers at once, `BUF_BASE` unchanged, no value checked (40_config_clear.md R41). -/
def execSetgeom (width height : BitVec 16) (stride : BitVec 32) (depth : Depth) (s : State) :
    Host.Outcome State Fault Refusal :=
  .next
    { s with
      buf := { s.buf with width := width, height := height, stride := stride, depth := depth } }.retire

end Sys2Proof.Machine
end

