-- ==== Sys2Proof/Machine/Flags.lean ====
section
/-! DEFINITION. The flag-like values of the block: the word `STATUS` (10_state.md R12) and the line's carry
(10_state.md R17). There are no condition codes. -/

namespace Sys2Proof.Machine

/-- The 32-bit word `STATUS` (10_state.md R12): `BUSY` in bit 0, `FAULT` in bit 1, `CAUSE` in bits 7:4, zeros in the
reserved bits 3:2 and 31:8. -/
def statusWord (busy fault : Bool) (cause : BitVec 4) : BitVec 32 :=
  0#24 ++ cause ++ 0#2 ++ BitVec.ofBool fault ++ BitVec.ofBool busy

/-- What the host reads on the status port, at any time and without effect (10_state.md R12). -/
def State.status (s : State) : BitVec 32 := statusWord s.busy s.fault s.cause

/-- The carry of one step of the line's walk: "new value ≤ old value" (10_state.md R17, 42_line.md R68). -/
def carry (new old : BitVec 16) : Bool := decide (new.toNat ≤ old.toNat)

end Sys2Proof.Machine
end

