-- ==== Sys2Proof/Machine/Line.lean ====
section
/-! DEFINITION. The line rasterizer `DrawLine` on its working registers, and the command LINE (42_line.md). -/

namespace Sys2Proof.Machine

/-- The operands of one `DrawLine` (00_scope.md R7). -/
structure Segment where
  x0 : Int
  y0 : Int
  x1 : Int
  y1 : Int
  deriving DecidableEq, Repr, Inhabited

/-- Step 1: both coordinates are exchanged if `y0 > y1` (42_line.md R61). -/
def Segment.normalise (g : Segment) : Segment :=
  if g.y1 < g.y0 then { x0 := g.x1, y0 := g.y1, x1 := g.x0, y1 := g.y0 } else g

/-- The four cases of a line (42_line.md R64). -/
inductive LineCase where
  | horizontal
  | vertical
  | diagonal
  | general
  deriving DecidableEq, Repr, Inhabited

/-- Steps 1 and 3: the point registers, the direction and the deltas of a line (42_line.md R61, R63). The registers
this does not write keep what they held. -/
def LineRegs.setup (r : LineRegs) (g : Segment) : LineRegs :=
  let q := g.normalise
  { r with
    x0 := q.x0
    y0 := q.y0
    x1 := q.x1
    y1 := q.y1
    xdir := if 0 ≤ q.x1 - q.x0 then 1 else -1
    dx := (q.x1 - q.x0).natAbs
    dy := (q.y1 - q.y0).toNat }

/-- Step 4, "in this priority order" (42_line.md R64; 90_conflicts.md C1). -/
def LineRegs.kind (r : LineRegs) : LineCase :=
  if r.dy = 0 then .horizontal
  else if r.dx = 0 then .vertical
  else if r.dx = r.dy then .diagonal
  else .general

/-- The delta of the major axis (42_line.md R68). -/
def LineRegs.major (r : LineRegs) : Nat := max r.dx r.dy

/-- The delta of the minor axis (42_line.md R68). -/
def LineRegs.minor (r : LineRegs) : Nat := min r.dx r.dy

/-- `error_step = (minor << 16) / major`, floor (42_line.md R68). -/
def LineRegs.errorStep (r : LineRegs) : Nat := (r.minor <<< 16) / r.major

/-- What a case loads before its loop: the repeat count, and in the general case the accumulator and its step
(42_line.md R65 to R68; 90_conflicts.md C2). -/
def LineRegs.load (k : LineCase) (r : LineRegs) : LineRegs :=
  match k with
  | .horizontal => { r with cnt := r.dx }
  | .vertical => { r with cnt := r.dy }
  | .diagonal => { r with cnt := r.dy }
  | .general => { r with acc := 0, step := BitVec.ofNat 16 r.errorStep, cnt := r.major - 1 }

/-- One pass of a case's loop before its plot event (42_line.md R65 to R68). -/
def LineRegs.advance (k : LineCase) (r : LineRegs) : LineRegs :=
  match k with
  | .horizontal => { r with x0 := r.x0 + r.xdir, cnt := r.cnt - 1 }
  | .vertical => { r with y0 := r.y0 + 1, cnt := r.cnt - 1 }
  | .diagonal => { r with x0 := r.x0 + r.xdir, y0 := r.y0 + 1, cnt := r.cnt - 1 }
  | .general =>
    let acc := r.acc + r.step
    let carried := carry acc r.acc
    if r.dx < r.dy then
      { r with
        acc := acc
        x0 := if carried then r.x0 + r.xdir else r.x0
        y0 := r.y0 + 1
        cnt := r.cnt - 1 }
    else
      { r with
        acc := acc
        y0 := if carried then r.y0 + 1 else r.y0
        x0 := r.x0 + r.xdir
        cnt := r.cnt - 1 }

/-- The registers after each of `n` passes of a case's loop, in order. -/
def LineRegs.walk (k : LineCase) (n : Nat) (r : LineRegs) : List LineRegs :=
  match n with
  | 0 => []
  | n' + 1 => r.advance k :: LineRegs.walk k n' (r.advance k)

/-- The walked point. -/
def LineRegs.point (r : LineRegs) : Point := ⟨r.x0, r.y0⟩

/-- What a line leaves: its plot events in order, and its working registers. -/
structure LineRun where
  points : List Point
  regs : LineRegs
  deriving DecidableEq, Repr, Inhabited

/-- `DrawLine` (42_line.md R60): the start point (R62), the passes of the line's case with a plot event after each
(R65 to R68), and in the general case the end point itself (R68). -/
def drawLine (r : LineRegs) (g : Segment) : LineRun :=
  let start := r.setup g
  let k := start.kind
  let loaded := start.load k
  let passes := LineRegs.walk k loaded.cnt loaded
  let final : List Point :=
    match k with
    | .horizontal => []
    | .vertical => []
    | .diagonal => []
    | .general => [⟨loaded.x1, loaded.y1⟩]
  { points := start.point :: (passes.map LineRegs.point ++ final), regs := passes.getLast?.getD loaded }

/-- Lines one after another; each finds in the working registers what the one before it left. -/
def drawLines (r : LineRegs) (gs : List Segment) : List Point :=
  match gs with
  | [] => []
  | g :: rest => (drawLine r g).points ++ drawLines (drawLine r g).regs rest

/-- LINE (42_line.md R60). -/
def execLine (x0 y0 x1 y1 : Int) (c : BitVec 16) (s : State) : Host.Outcome State Fault Refusal :=
  .next (s.perform (s.buf.drawWrites c (drawLine s.line ⟨x0, y0, x1, y1⟩).points)).retire

end Sys2Proof.Machine
end

