-- ==== Sys2Proof/Machine/Ellipse.lean ====
section
/-! DEFINITION. The ellipse rasterizer on its working registers, and the commands ELLIPSE and FELLIPSE
(43_ellipse.md). -/

namespace Sys2Proof.Machine

/-! ## The stepping function -/

/-- Branch selection and initialisation (43_ellipse.md R73, R74). The registers this does not write keep what they
held. -/
def EllipseRegs.setup (e : EllipseRegs) (cx cy : Int) (rx ry : Nat) : EllipseRegs :=
  let m := if ry ≤ rx then rx else ry
  { e with
    cx := cx
    cy := cy
    rx := rx
    ry := ry
    m := m
    n := if ry ≤ rx then ry else rx
    ix := 0
    iy := (m : Int) * 2 ^ ellShift
    oh := none
    oi := none
    oj := none
    ok := none }

/-- The projections at the start of a step (43_ellipse.md R75); shift and division are floors. -/
def EllipseRegs.project (e : EllipseRegs) : EllipseRegs :=
  let h := (e.ix + ellBias) / 2 ^ ellShift
  let i := (e.iy + ellBias) / 2 ^ ellShift
  { e with h := h, i := i, j := h * e.n / e.m, k := i * e.n / e.m }

/-- The gate: the step's tuple differs from the previous step's (43_ellipse.md R76). -/
def EllipseRegs.qualifies (e : EllipseRegs) : Bool :=
  decide (e.oh ≠ some e.h) || decide (e.oi ≠ some e.i) || decide (e.oj ≠ some e.j) || decide (e.ok ≠ some e.k)

/-- The tuple becomes the previous one, on every step (43_ellipse.md R76). -/
def EllipseRegs.remember (e : EllipseRegs) : EllipseRegs :=
  { e with oh := some e.h, oi := some e.i, oj := some e.j, ok := some e.k }

/-- The update at the end of a step; the second line uses the new `ix` (43_ellipse.md R77). -/
def EllipseRegs.update (e : EllipseRegs) : EllipseRegs :=
  let ix := e.ix + e.iy / e.m
  { e with ix := ix, iy := e.iy - ix / e.m }

/-- The steps of the post-test loop (43_ellipse.md R77) from `e`, each as the registers after its projections, `none`
if they do not end within `budget` steps (log 13). -/
def ellipseLoop (budget : Nat) (e : EllipseRegs) : Option (List EllipseRegs) :=
  match budget with
  | 0 => none
  | b + 1 =>
    let p := e.project
    if p.h < p.i then (ellipseLoop b p.remember.update).map (fun rest => p :: rest) else some [p]

/-- How many steps the loop is given: more than it ever takes (43_ellipse.md R78 (d); log 13). -/
def ellipseBudget (rx ry : Nat) : Nat := 2 * max rx ry + 2

/-- The qualifying steps of `EllipseSteps(rx, ry)` about a centre, in step order (43_ellipse.md R73 to R77). -/
def ellipseSteps (e : EllipseRegs) (cx cy : Int) (rx ry : Nat) : Option (List EllipseRegs) :=
  (ellipseLoop (ellipseBudget rx ry) (e.setup cx cy rx ry)).map (List.filter EllipseRegs.qualifies)

/-! ## The two renderers -/

/-- A boundary pair: half-width along x, row offset along y (43_ellipse.md R79). -/
structure BoundaryPair where
  w : Int
  r : Int
  deriving DecidableEq, Repr, Inhabited

/-- `pair1` of a step (43_ellipse.md R79). -/
def EllipseRegs.pair1 (e : EllipseRegs) : BoundaryPair := if e.ry ≤ e.rx then ⟨e.h, e.k⟩ else ⟨e.j, e.i⟩

/-- `pair2` of a step (43_ellipse.md R79). -/
def EllipseRegs.pair2 (e : EllipseRegs) : BoundaryPair := if e.ry ≤ e.rx then ⟨e.i, e.j⟩ else ⟨e.k, e.h⟩

/-- The four plot events of a pair in outline mode (43_ellipse.md R80). -/
def BoundaryPair.outline (b : BoundaryPair) (cx cy : Int) : List Point :=
  [⟨cx - b.w, cy + b.r⟩, ⟨cx + b.w, cy + b.r⟩, ⟨cx - b.w, cy - b.r⟩, ⟨cx + b.w, cy - b.r⟩]

/-- The eight plot events of a qualifying step in outline mode (43_ellipse.md R80). -/
def EllipseRegs.outline (e : EllipseRegs) : List Point :=
  e.pair1.outline e.cx e.cy ++ e.pair2.outline e.cx e.cy

/-- The two lines of a span in fill mode, `cy + r` first (43_ellipse.md R81). -/
def BoundaryPair.lines (b : BoundaryPair) (cx cy : Int) : List Segment :=
  [⟨cx - b.w, cy + b.r, cx + b.w, cy + b.r⟩, ⟨cx - b.w, cy - b.r, cx + b.w, cy - b.r⟩]

/-- The spans of a qualifying step: equal rows give one span, the wider (43_ellipse.md R81; 90_conflicts.md C5). -/
def EllipseRegs.spans (e : EllipseRegs) : List BoundaryPair :=
  if e.pair1.r ≠ e.pair2.r then [e.pair1, e.pair2] else [⟨max e.pair1.w e.pair2.w, e.pair1.r⟩]

/-- The lines of a qualifying step in fill mode, in order (43_ellipse.md R81). -/
def EllipseRegs.fillLines (e : EllipseRegs) : List Segment :=
  e.spans.flatMap fun b => b.lines e.cx e.cy

/-- The degenerate-input policy, "checked first, identical for outline and fill" (43_ellipse.md R72): the plot events,
or `none` in the general case. -/
def degeneratePoints (r : LineRegs) (cx cy : Int) (rx ry : Nat) : Option (List Point) :=
  if rx = 0 ∧ ry = 0 then some [⟨cx, cy⟩]
  else if rx = 0 then some (drawLine r ⟨cx, cy - ry, cx, cy + ry⟩).points
  else if ry = 0 then some (drawLine r ⟨cx - rx, cy, cx + rx, cy⟩).points
  else none

/-- The plot events of ELLIPSE (43_ellipse.md R70). -/
def ellipsePoints (r : LineRegs) (e : EllipseRegs) (cx cy : Int) (rx ry : Nat) : Option (List Point) :=
  match degeneratePoints r cx cy rx ry with
  | some ps => some ps
  | none => (ellipseSteps e cx cy rx ry).map fun steps => steps.flatMap EllipseRegs.outline

/-- The plot events of FELLIPSE (43_ellipse.md R71). -/
def fellipsePoints (r : LineRegs) (e : EllipseRegs) (cx cy : Int) (rx ry : Nat) : Option (List Point) :=
  match degeneratePoints r cx cy rx ry with
  | some ps => some ps
  | none => (ellipseSteps e cx cy rx ry).map fun steps => drawLines r (steps.flatMap EllipseRegs.fillLines)

/-- ELLIPSE (43_ellipse.md R70). The stop is the guard of log 13. -/
def execEllipse (cx cy : Int) (rx ry : Nat) (c : BitVec 16) (s : State) : Host.Outcome State Fault Refusal :=
  match ellipsePoints s.line s.ell cx cy rx ry with
  | some ps => .next (s.perform (s.buf.drawWrites c ps)).retire
  | none => .fault .ellipseUnfinished

/-- FELLIPSE (43_ellipse.md R71). The stop is the guard of log 13. -/
def execFellipse (cx cy : Int) (rx ry : Nat) (c : BitVec 16) (s : State) : Host.Outcome State Fault Refusal :=
  match fellipsePoints s.line s.ell cx cy rx ry with
  | some ps => .next (s.perform (s.buf.drawWrites c ps)).retire
  | none => .fault .ellipseUnfinished

end Sys2Proof.Machine
end

