-- ==== Sys2Proof/Machine/Plot.lean ====
section
/-! DEFINITION. The command PLOT (41_pack_plot.md R55). -/

namespace Sys2Proof.Machine

/-- PLOT: one plot event (41_pack_plot.md R55). -/
def execPlot (x y : Int) (c : BitVec 16) (s : State) : Host.Outcome State Fault Refusal :=
  .next (s.perform (s.buf.plotWrites c ⟨x, y⟩)).retire

end Sys2Proof.Machine
end

