-- ==== Sys2Proof/Machine/Dispatch.lean ====
section
/-! DEFINITION. The meaning of each command, one arm per constructor of Instr (30_encoding.md R34: "execute the row's
rule with the operands of rule R31"). -/

namespace Sys2Proof.Machine

def exec (i : Instr) (s : State) : Host.Outcome State Fault Refusal :=
  match i with
  | .setbase base => Sys2Proof.Machine.execSetbase base s
  | .setgeom width height stride depth => Sys2Proof.Machine.execSetgeom width height stride depth s
  | .clear => Sys2Proof.Machine.execClear s
  | .plot x y c => Sys2Proof.Machine.execPlot x y c s
  | .line x0 y0 x1 y1 c => Sys2Proof.Machine.execLine x0 y0 x1 y1 c s
  | .ellipse cx cy rx ry c => Sys2Proof.Machine.execEllipse cx cy rx ry c s
  | .fellipse cx cy rx ry c => Sys2Proof.Machine.execFellipse cx cy rx ry c s

end Sys2Proof.Machine
end

