-- ==== Sys2Proof/Machine/Engine.lean ====
section
/-! DEFINITION. The two agents' moves (00_scope.md R3) and which of them is made next (log 1, 2). -/

namespace Sys2Proof.Machine

/-- The whole write-event sequence of a command from a state (00_scope.md R8; 70_reset_and_hazards.md R128). -/
def commandWrites (i : Instr) (s : State) : List WriteEvent :=
  match i with
  | .setbase _ => []
  | .setgeom _ _ _ _ => []
  | .clear => s.buf.clearWrites
  | .plot x y c => s.buf.plotWrites c ⟨x, y⟩
  | .line x0 y0 x1 y1 c => s.buf.drawWrites c (drawLine s.line ⟨x0, y0, x1, y1⟩).points
  | .ellipse cx cy rx ry c => s.buf.drawWrites c ((ellipsePoints s.line s.ell cx cy rx ry).getD [])
  | .fellipse cx cy rx ry c => s.buf.drawWrites c ((fellipsePoints s.line s.ell cx cy rx ry).getD [])

/-- The write events of the latched word; a word that is no command has none (60_exceptions.md R104). -/
def State.latchedWrites (s : State) : List WriteEvent :=
  match decode s.latch.toWord with
  | .ok i => commandWrites i s
  | .error _ => []

/-- The byte address lies in the buffer region, taken mod 2^32 (20_memory.md R26, R25). -/
def Descriptor.inRegion (d : Descriptor) (a : Addr) : Bool :=
  decide ((a - d.base).toNat < d.stride.toNat * d.height.toNat)

/-- The host's next action, where it can be made now: reset at any time (70_reset_and_hazards.md R120); a word goes to
the port when the port is free (30_encoding.md R37); a memory write outside the buffer region at any time, inside it
only while `BUSY = 0` (20_memory.md R28; log 12). -/
def State.hostMove (s : State) : Option State :=
  match s.host with
  | [] => none
  | .reset :: rest => some ({ s with host := rest }.takeReset s.latchedWrites)
  | .present w :: rest =>
    match s.port with
    | none => some { s with port := some w, host := rest }
    | some _ => none
  | .store a v :: rest =>
    if s.busy && s.buf.inRegion a then none
    else some { s with mem := Memory.write s.mem a.toNat v, host := rest }
  | .wait :: _ => none

/-- The host's `wait` is spent on the engine's move. -/
def State.spendWait (s : State) : State :=
  match s.host with
  | .wait :: rest => { s with host := rest }
  | [] => s
  | .reset :: _ => s
  | .present _ :: _ => s
  | .store _ _ :: _ => s

/-- The engine's move. With `FAULT = 1` it is stuck (60_exceptions.md R105). Executing, it decodes the latched word and
runs the command to its end, or takes the decode fault (30_encoding.md R34, R37). Idle, it accepts the word at the port
(30_encoding.md R37), or waits for one and keeps all its state (60_exceptions.md R111). -/
def State.engineMove (s : State) : Host.Outcome State Fault Refusal :=
  if s.fault then .next s
  else if s.busy then
    match decode s.latch.toWord with
    | .ok i => exec i s
    | .error f => .next (s.raiseFault f)
  else
    match s.port with
    | some w => .next (s.accept w)
    | none => .next s

/-- One move: the host's if it has one to make, else the engine's. -/
def State.move (s : State) : Host.Outcome State Fault Refusal :=
  match s.hostMove with
  | some t => .next t
  | none => s.spendWait.engineMove

/-- The state in which the engine has just accepted a word and the host does nothing further: the next move runs that
word (log 16). -/
def State.loadCommand (s : State) (w : CommandWord) : State :=
  { s with latch := CommandFields.ofWord w, busy := true, fault := false, cause := 0, host := [] }

end Sys2Proof.Machine
end

