-- ==== Sys2Proof/Machine/Step.lean ====
section
/-! DEFINITION. One step of the machine, and the state whose next step runs a given command word. -/

namespace Sys2Proof.Machine

/-- One step: a host action, an acceptance, or the whole course of an accepted command (log 1). -/
def step (s : State) : Host.Outcome State Fault Refusal := s.move

/-- The state whose very next step runs the command of a table row's bits (log 16). -/
def State.withFetchWord (s : State) (nbits w : Nat) : State := s.loadCommand (tableWord nbits w)

end Sys2Proof.Machine
end

