-- ==== Sys2Proof/Safety.lean ====
section
/-! DEFINITION. The terms in which claims about the block are stated: the host's duties, the buffer region, what a
command's end looks like from outside, the invariant of the machine. -/

namespace Sys2Proof

/-! ## Encoding -/

/-- The must-be-zero operand bits of a row are zero: the lists of 60_exceptions.md R102, without `RSV`. -/
def CommandFields.operandsClean (op : Opcode) (f : CommandFields) : Prop :=
  match op with
  | .setbase => f.a2 = 0 ∧ f.a3 = 0 ∧ f.c = 0
  | .setgeom => f.c = 0 ∨ f.c = 1
  | .clear => f.c = 0 ∧ f.a3 = 0 ∧ f.a2 = 0 ∧ f.a1 = 0 ∧ f.a0 = 0
  | .plot => f.a2 = 0 ∧ f.a3 = 0
  | .line => True
  | .ellipse => True
  | .fellipse => True

/-! ## Commands -/

/-- The commands that draw or clear: those that reach memory (20_memory.md R20). -/
def Instr.reachesMemory : Instr → Bool
  | .setbase _ => false
  | .setgeom _ _ _ _ => false
  | .clear => true
  | .plot _ _ _ => true
  | .line _ _ _ _ _ => true
  | .ellipse _ _ _ _ _ => true
  | .fellipse _ _ _ _ _ => true

/-- The descriptor after a command (40_config_clear.md R40, R41; 10_state.md R11: only these two write it). -/
def Instr.descriptorAfter (i : Instr) (d : Machine.Descriptor) : Machine.Descriptor :=
  match i with
  | .setbase base => { d with base := base }
  | .setgeom width height stride depth => { d with width := width, height := height, stride := stride, depth := depth }
  | .clear => d
  | .plot _ _ _ => d
  | .line _ _ _ _ _ => d
  | .ellipse _ _ _ _ _ => d
  | .fellipse _ _ _ _ _ => d

end Sys2Proof

namespace Sys2Proof.Machine

/-! ## Descriptor and buffer -/

/-- The host's duties (a) and (b) about the descriptor (40_config_clear.md R43). -/
def Descriptor.Duties (d : Descriptor) : Prop :=
  d.width.toNat * bytesPerPixel d.depth ≤ d.stride.toNat ∧
    d.base.toNat + d.stride.toNat * d.height.toNat ≤ 2 ^ 32

/-- The buffer region (20_memory.md R26). -/
def Descriptor.InBuffer (d : Descriptor) (a : Nat) : Prop :=
  d.base.toNat ≤ a ∧ a < d.base.toNat + d.stride.toNat * d.height.toNat

/-- Some write event of the list writes the byte address. -/
def Touched (es : List WriteEvent) (a : Nat) : Prop := ∃ e ∈ es, e.covers a

/-! ## The end of a command -/

/-- `t` is what the host sees after a command that ran from `s`: the engine is idle, the fault fields are as before,
and neither the port nor the host's plan has changed. Latches and working registers are anything (log 6). -/
def State.Retired (s t : State) : Prop :=
  t.busy = false ∧ t.fault = s.fault ∧ t.cause = s.cause ∧ t.port = s.port ∧ t.host = s.host

/-- Two states that differ at most in what is not readable and does not survive a command: latches, working registers
and the draw counter (10_state.md R10). -/
def State.Agree (s t : State) : Prop :=
  s.buf = t.buf ∧ s.busy = t.busy ∧ s.fault = t.fault ∧ s.cause = t.cause ∧ s.mem = t.mem ∧ s.port = t.port ∧
    s.host = t.host

/-! ## The invariant -/

/-- What every step keeps: memory is in its canonical form; `BUSY` and `FAULT` are never both 1 (30_encoding.md R37,
60_exceptions.md R104, R105); `CAUSE` is 0 without a fault and 1 or 2 with one (10_state.md R12, 60_exceptions.md
R100). -/
def State.Inv (s : State) : Prop :=
  Memory.wf s.mem = true ∧ ¬(s.busy = true ∧ s.fault = true) ∧ (s.fault = false → s.cause = 0) ∧
    (s.fault = true → s.cause = 1 ∨ s.cause = 2)

end Sys2Proof.Machine
end

