-- ==== Sys2Proof/Certificates/Slice0/Obligations.lean ====
section
/-! DEFINITION. The statements for the provers, in the order of the spec's files. Each says of the rules it names what
they say; where a statement rests on an inference or a choice of the model its docstring says so. -/

open Sys2Proof Sys2Proof.Machine

/-! ## 10_state.md -/

/-- R10: "no command reads a value a previous command left in" the working state. Two states that differ only in
latches, working registers and draw counter give ends that differ only there. -/
def Obligations.NoCommandReadsWhatACommandLeft : Prop :=
  ∀ (i : Instr) (s s' t : State), s.Agree s' → exec i s = .next t →
    ∃ t', exec i s' = .next t' ∧ t.Agree t'

/-- R11, R125: in a whole step the descriptor changes only by a reset, a SETBASE or a SETGEOM. -/
def Obligations.OnlyConfigurationChangesTheDescriptor : Prop :=
  ∀ s t : State, step s = .next t → t.buf ≠ s.buf →
    s.host.head? = some .reset ∨
      (s.busy = true ∧ s.fault = false ∧
        ((∃ base, decode s.latch.toWord = .ok (.setbase base) ∧ t.buf = { s.buf with base := base }) ∨
          ∃ width height stride depth, decode s.latch.toWord = .ok (.setgeom width height stride depth) ∧
            t.buf = { s.buf with width := width, height := height, stride := stride, depth := depth }))

/-- R12, the layout of `STATUS`: where each field lies and that the reserved bits read 0. -/
def Obligations.StatusWordLayout : Prop :=
  ∀ s : State, s.status.getLsbD 0 = s.busy ∧ s.status.getLsbD 1 = s.fault ∧
    s.status.extractLsb' 2 2 = 0#2 ∧ s.status.extractLsb' 4 4 = s.cause ∧ s.status.extractLsb' 8 24 = 0#24

/-- R19: the reset values the spec gives, and that a block with the reset descriptor writes nothing. -/
def Obligations.ResetLeavesTheBlockHarmless : Prop :=
  State.reset.buf = { base := 0#32, width := 0#16, height := 0#16, stride := 0#32, depth := .d16 } ∧
    State.reset.status = 0#32 ∧ State.reset.busy = false ∧ State.reset.fault = false ∧ State.reset.cause = 0#4 ∧
    ∀ (i : Instr) (s : State), s.buf = State.reset.buf → commandWrites i s = []

/-! ## 20_memory.md -/

/-- R20: in a whole step memory changes only by the host's own write or by the engine executing a command that reaches
memory (CLEAR, PLOT, LINE, ELLIPSE, FELLIPSE), to its end or as far as a reset lets it. -/
def Obligations.MemoryChangesOnlyByDrawingOrTheHost : Prop :=
  ∀ s t : State, step s = .next t → t.mem ≠ s.mem →
    (∃ a v rest, s.host = .store a v :: rest ∧ t.mem = Memory.write s.mem a.toNat v) ∨
      (s.busy = true ∧ ∃ i, decode s.latch.toWord = .ok i ∧ i.reachesMemory = true)

/-- R21: where each byte of a write event goes, and that no other byte changes. -/
def Obligations.MemWriteStoresLittleEndianBytes : Prop :=
  ∀ (e : WriteEvent) (m : Memory), e.n ≤ 4 →
    (∀ b, b < e.n →
      Memory.read (e.perform m) ((e.addr.toNat + b) % 2 ^ 32) = some (BitVec.ofNat 8 (e.v.toNat >>> (8 * b)))) ∧
    ∀ a, (∀ b, b < e.n → a ≠ (e.addr.toNat + b) % 2 ^ 32) → Memory.read (e.perform m) a = Memory.read m a

/-- R22: the byte address of a native pixel, for both depths. -/
def Obligations.PixelAddressIsExactThenWraps : Prop :=
  ∀ (d : Descriptor) (px py : Nat),
    (d.depth = .d16 →
      (d.pixAddr px py).toNat = (d.base.toNat + py * d.stride.toNat + px * 2) % 2 ^ 32) ∧
    (d.depth = .d24 →
      (d.pixAddr px py).toNat = (d.base.toNat + py * d.stride.toNat + px * 4) % 2 ^ 32)

/-- R24, R27: the width and the value of every write event of a command. -/
def Obligations.WriteEventsCarryOneValue : Prop :=
  ∀ (s : State) (e : WriteEvent),
    (e ∈ commandWrites .clear s → e.n = 1 ∧ e.v = 0) ∧
    ∀ (c : BitVec 16),
      (∀ x y, e ∈ commandWrites (.plot x y c) s → e.n = bytesPerPixel s.buf.depth ∧ e.v = pack s.buf.depth c) ∧
      (∀ x0 y0 x1 y1, e ∈ commandWrites (.line x0 y0 x1 y1 c) s →
        e.n = bytesPerPixel s.buf.depth ∧ e.v = pack s.buf.depth c) ∧
      (∀ cx cy rx ry, e ∈ commandWrites (.ellipse cx cy rx ry c) s →
        e.n = bytesPerPixel s.buf.depth ∧ e.v = pack s.buf.depth c) ∧
      (∀ cx cy rx ry, e ∈ commandWrites (.fellipse cx cy rx ry c) s →
        e.n = bytesPerPixel s.buf.depth ∧ e.v = pack s.buf.depth c)

/-- R27: under the host's duties the memory a command leaves does not depend on the order of its write events. The
premise is the model's (log 21): without it two pixel writes may overlap in part. -/
def Obligations.WriteOrderWithinACommandDoesNotMatter : Prop :=
  ∀ (i : Instr) (s : State) (es : List WriteEvent) (m : Memory) (a : Nat),
    s.buf.Duties → es.Perm (commandWrites i s) →
      Memory.read (performAll es m) a = Memory.read (performAll (commandWrites i s) m) a

/-- R28: the host's write inside the buffer region waits while `BUSY = 1`; otherwise it is performed at once. That a
write outside the region is let through while `BUSY = 1` is the model's reading (log 12). -/
def Obligations.HostWritesTheBufferOnlyWhenIdle : Prop :=
  ∀ (s : State) (a : Addr) (v : Byte) (rest : List HostEvent), s.host = .store a v :: rest →
    (s.busy = true ∧ s.buf.inRegion a = true → step s = s.engineMove) ∧
    (s.busy = false ∨ s.buf.inRegion a = false →
      step s = .next { s with mem := Memory.write s.mem a.toNat v, host := rest })

/-! ## 30_encoding.md -/

/-- R30: the bits of a command word by field. -/
def Obligations.FieldsLieWhereTheWordPutsThem : Prop :=
  ∀ w : CommandWord,
    let f := CommandFields.ofWord w
    w.toNat = f.opc.toNat * 2 ^ 88 + f.rsv.toNat * 2 ^ 80 + f.c.toNat * 2 ^ 64 + f.a3.toNat * 2 ^ 48 +
      f.a2.toNat * 2 ^ 32 + f.a1.toNat * 2 ^ 16 + f.a0.toNat

/-- R33: "Encode followed by decode gives back the operands, and decode followed by encode gives back the word", for
all seven commands and every operand a word can carry. -/
def Obligations.DecodeAndEncodeAgree : Prop :=
  (∀ i : Instr, i.wellFormed = true → decode (encode i) = .ok i) ∧
    ∀ (w : CommandWord) (i : Instr), decode w = .ok i → encode i = w ∧ i.wellFormed = true

/-- R34, R35, R101, R102, R103: which words fault, with which fault; every other word is a command. -/
def Obligations.DecodeFaultsExactlyTheReservedWords : Prop :=
  ∀ w : CommandWord,
    let f := CommandFields.ofWord w
    let legal := f.opc = 0x01#8 ∨ f.opc = 0x02#8 ∨ f.opc = 0x03#8 ∨ f.opc = 0x10#8 ∨ f.opc = 0x11#8 ∨
      f.opc = 0x12#8 ∨ f.opc = 0x13#8
    let dirty := f.rsv ≠ 0 ∨
      (f.opc = 0x01#8 ∧ (f.a2 ≠ 0 ∨ f.a3 ≠ 0 ∨ f.c ≠ 0)) ∨
      (f.opc = 0x02#8 ∧ f.c.extractLsb' 1 15 ≠ 0) ∨
      (f.opc = 0x03#8 ∧ (f.a0 ≠ 0 ∨ f.a1 ≠ 0 ∨ f.a2 ≠ 0 ∨ f.a3 ≠ 0 ∨ f.c ≠ 0)) ∨
      (f.opc = 0x10#8 ∧ (f.a2 ≠ 0 ∨ f.a3 ≠ 0))
    (decode w = .error .illegalOpcode ↔ ¬legal) ∧ (decode w = .error .reservedNonzero ↔ legal ∧ dirty) ∧
      (legal ∧ ¬dirty → ∃ i, decode w = .ok i)

/-- A few words of 95_test_vectors.md V-D1, V-D2, V-D3 decode as the spec lists them: a sanity statement. -/
def Obligations.WordsOfTheSpecDecodeAsListed : Prop :=
  decode 0x0100000000000000FFFFFFFE#96 = .ok (.setbase 0xFFFFFFFE#32) ∧
    decode 0x0200000100000064000C0018#96 = .ok (.setgeom 24#16 12#16 100#32 .d24) ∧
    decode 0x030000000000000000000000#96 = .ok .clear ∧
    decode 0x1000FFFF000000008000FFFF#96 = .ok (.plot (-1) (-32768) 0xFFFF#16) ∧
    decode 0x110000FF0003000A0002FFFF#96 = .ok (.line (-1) 2 10 3 0x00FF#16) ∧
    decode 0x12008000FFFF800080007FFF#96 = .ok (.ellipse 32767 (-32768) 32768 65535 0x8000#16) ∧
    decode 0x130000FF00010001000A000A#96 = .ok (.fellipse 10 10 1 1 0x00FF#16) ∧
    decode 0x20FF00050004000300020001#96 = .error .illegalOpcode ∧
    decode 0x110100FF0000000500000000#96 = .error .reservedNonzero

/-- R37: an idle, unfaulted block accepts the word at the port, latching it and raising `BUSY` at once, when the host
makes no move of its own. -/
def Obligations.AcceptanceLatchesTheWord : Prop :=
  ∀ (s : State) (w : CommandWord), s.busy = false → s.fault = false → s.port = some w → s.hostMove = none →
    ∃ t, step s = .next t ∧ t.latch = CommandFields.ofWord w ∧ t.latch.toWord = w ∧ t.busy = true ∧ t.port = none ∧
      t.buf = s.buf ∧ t.mem = s.mem ∧ t.fault = false ∧ t.cause = s.cause ∧ t.host = s.spendWait.host

/-- R37: a word presented while `BUSY = 1` or `FAULT = 1` is held at the port, whatever the step. -/
def Obligations.PresentedWordIsHeld : Prop :=
  ∀ (s t : State) (w : CommandWord), s.busy = true ∨ s.fault = true → s.port = some w → step s = .next t →
    t.port = some w

/-- R37: `BUSY` rises only by the acceptance of the word at the port, with `FAULT = 0`. -/
def Obligations.BusyRisesOnlyByAcceptance : Prop :=
  ∀ s t : State, step s = .next t → s.busy = false → t.busy = true →
    s.fault = false ∧ ∃ w, s.port = some w ∧ t.latch = CommandFields.ofWord w ∧ t.port = none

/-- The step of an executing block is the meaning of the command its latches hold; around it the step only spends the
host's `wait`. The state of log 16 runs exactly the word it was given. -/
def Obligations.StepRunsTheDecodedInstruction : Prop :=
  (∀ (s : State) (i : Instr), s.fault = false → s.busy = true → s.hostMove = none →
    decode s.latch.toWord = .ok i → step s = exec i s.spendWait) ∧
  ∀ (s : State) (w : Nat) (i : Instr), decodeTableWord 96 w = some i →
    step (s.withFetchWord 96 w) = exec i (s.withFetchWord 96 w)

/-- R37: the whole course of a command: presented to an idle block it is accepted, executed to its end with all its
write events performed, and retired, in three steps of the model (log 1). -/
def Obligations.PresentedCommandRetires : Prop :=
  ∀ (s : State) (w : CommandWord) (i : Instr), s.busy = false → s.fault = false → s.port = none →
    s.host = [.present w] → decode w = .ok i →
      ∃ t : State, Sys2Proof.core.run 3 s = Host.Outcome.next t ∧ t.busy = false ∧ t.fault = false ∧
        t.cause = s.cause ∧ t.port = none ∧ t.host = [] ∧ t.buf = i.descriptorAfter s.buf ∧
        t.mem = performAll (commandWrites i s) s.mem

/-! ## 40_config_clear.md -/

/-- R40, SETBASE. -/
def Obligations.SetbaseLoadsTheBase : Prop :=
  (∀ (base : Addr) (s : State), ∃ t, exec (.setbase base) s = .next t ∧ t.buf = { s.buf with base := base } ∧
    commandWrites (.setbase base) s = [] ∧ t.mem = s.mem ∧ s.Retired t) ∧
  (∀ w : CommandWord,
    let f := CommandFields.ofWord w
    f.opc = 0x01#8 →
      if f.rsv = 0 ∧ f.a2 = 0 ∧ f.a3 = 0 ∧ f.c = 0 then decode w = .ok (.setbase (f.a1 ++ f.a0))
      else decode w = .error .reservedNonzero) ∧
  decode 0x010000000000000000001000#96 = .ok (.setbase 0x00001000#32)

/-- R41, SETGEOM. -/
def Obligations.SetgeomLoadsFourRegisters : Prop :=
  (∀ (width height : BitVec 16) (stride : BitVec 32) (depth : Depth) (s : State),
    ∃ t, exec (.setgeom width height stride depth) s = .next t ∧
      t.buf = { base := s.buf.base, width := width, height := height, stride := stride, depth := depth } ∧
      commandWrites (.setgeom width height stride depth) s = [] ∧ t.mem = s.mem ∧ s.Retired t) ∧
  (∀ w : CommandWord,
    let f := CommandFields.ofWord w
    f.opc = 0x02#8 →
      if f.rsv = 0 ∧ f.c.extractLsb' 1 15 = 0 then
        decode w = .ok (.setgeom f.a0 f.a1 (f.a3 ++ f.a2) (if f.c.getLsbD 0 then .d24 else .d16))
      else decode w = .error .reservedNonzero) ∧
  decode 0x0200000100000064000C0018#96 = .ok (.setgeom 24#16 12#16 100#32 .d24)

/-- R42, CLEAR: its write events are the `BUF_STRIDE × BUF_HEIGHT` byte addresses from `BUF_BASE` upward, each once;
after it every byte of the region is 0 and no other byte has changed. That the events are one ascending run is the
spec's own inference in R42, from its two nested loops. -/
def Obligations.ClearZeroesEveryByteOfTheRegion : Prop :=
  (∀ s : State,
    let n := s.buf.height.toNat * s.buf.stride.toNat
    commandWrites .clear s =
      (List.range n).map (fun k => { addr := BitVec.ofNat 32 (s.buf.base.toNat + k), n := 1, v := 0 }) ∧
    ∃ t, exec .clear s = .next t ∧ t.buf = s.buf ∧ s.Retired t ∧ t.mem = performAll (commandWrites .clear s) s.mem ∧
      (∀ k, k < n → Memory.read t.mem ((s.buf.base.toNat + k) % 2 ^ 32) = some 0) ∧
      ∀ a, (∀ k, k < n → a ≠ (s.buf.base.toNat + k) % 2 ^ 32) → Memory.read t.mem a = Memory.read s.mem a) ∧
  ∀ w : CommandWord,
    let f := CommandFields.ofWord w
    f.opc = 0x03#8 →
      if f.rsv = 0 ∧ f.c = 0 ∧ f.a3 = 0 ∧ f.a2 = 0 ∧ f.a1 = 0 ∧ f.a0 = 0 then decode w = .ok .clear
      else decode w = .error .reservedNonzero

/-! ## 41_pack_plot.md -/

/-- R51, R52: the two packers, by value: `v = c[7:3]` in the three channels of a 5-6-5 pixel; `g = c[7:0]` in three
bytes and 0 in the fourth. -/
def Obligations.PackersPlaceTheirBits : Prop :=
  ∀ c : BitVec 16,
    (let v := c.toNat / 8 % 32
     (pack .d16 c).toNat = v * 2048 + v * 64 + v) ∧
    (let g := c.toNat % 256
     (pack .d24 c).toNat = g * 65536 + g * 256 + g)

/-- R53: the bounds test; a dropped PLOT completes and changes nothing else. -/
def Obligations.PlotIsDroppedOutsideTheBounds : Prop :=
  ∀ (s : State) (x y : Int) (c : BitVec 16),
    (s.buf.plotWrites c ⟨x, y⟩ = [] ↔
      x < 0 ∨ y < 0 ∨ x ≥ (s.buf.width.toNat / 2 : Nat) - (1 : Int) ∨
        y ≥ (s.buf.height.toNat / 2 : Nat) - (1 : Int)) ∧
    (s.buf.width.toNat < 4 ∨ s.buf.height.toNat < 4 → s.buf.plotWrites c ⟨x, y⟩ = []) ∧
    (s.buf.plotWrites c ⟨x, y⟩ = [] →
      ∃ t, exec (.plot x y c) s = .next t ∧ t.mem = s.mem ∧ t.buf = s.buf ∧ s.Retired t)

/-- R54: the four write events of an accepted plot event, in order. -/
def Obligations.AcceptedPlotWritesFourPixels : Prop :=
  ∀ (d : Descriptor) (c : BitVec 16) (x y : Nat),
    x < d.width.toNat / 2 - 1 → y < d.height.toNat / 2 - 1 →
      d.plotWrites c ⟨x, y⟩ =
        [{ addr := d.pixAddr (2 * x) (2 * y), n := bytesPerPixel d.depth, v := pack d.depth c },
          { addr := d.pixAddr (2 * x + 1) (2 * y), n := bytesPerPixel d.depth, v := pack d.depth c },
          { addr := d.pixAddr (2 * x) (2 * y + 1), n := bytesPerPixel d.depth, v := pack d.depth c },
          { addr := d.pixAddr (2 * x + 1) (2 * y + 1), n := bytesPerPixel d.depth, v := pack d.depth c }]

/-- R55, PLOT: one plot event; plotting the same point twice leaves the memory of plotting it once. -/
def Obligations.PlotRunsOnePlotEvent : Prop :=
  (∀ (x y : Int) (c : BitVec 16) (s : State),
    ∃ t, exec (.plot x y c) s = .next t ∧ t.mem = performAll (s.buf.plotWrites c ⟨x, y⟩) s.mem ∧ t.buf = s.buf ∧
      s.Retired t ∧
      ∃ u, exec (.plot x y c) t = .next u ∧ ∀ a, Memory.read u.mem a = Memory.read t.mem a) ∧
  ∀ w : CommandWord,
    let f := CommandFields.ofWord w
    f.opc = 0x10#8 →
      if f.rsv = 0 ∧ f.a2 = 0 ∧ f.a3 = 0 then decode w = .ok (.plot f.a0.toInt f.a1.toInt f.c)
      else decode w = .error .reservedNonzero

/-- R56: the native pixels of an accepted plot event lie inside the buffer and never in its last two columns or rows. -/
def Obligations.AcceptedPixelsStayOffTheLastColumns : Prop :=
  ∀ (d : Descriptor) (p : Point), d.dropped p = false →
    0 ≤ 2 * p.x ∧ 2 * p.x + 1 ≤ (d.width.toNat : Int) - 3 ∧ 0 ≤ 2 * p.y ∧ 2 * p.y + 1 ≤ (d.height.toNat : Int) - 3

/-- R57, under the duties of R43: after a PLOT inside the range the four native pixels hold the packed color, byte by
byte, and no other byte has changed; after one outside it no byte has. -/
def Obligations.PlottedBlockHoldsThePackedColor : Prop :=
  ∀ (s : State) (x y : Int) (c : BitVec 16), s.buf.Duties →
    ∃ t, exec (.plot x y c) s = .next t ∧
      if s.buf.dropped ⟨x, y⟩ then ∀ a, Memory.read t.mem a = Memory.read s.mem a
      else
        (∀ i j b, i ≤ 1 → j ≤ 1 → b < bytesPerPixel s.buf.depth →
          Memory.read t.mem
              (s.buf.base.toNat + (2 * y.toNat + j) * s.buf.stride.toNat +
                (2 * x.toNat + i) * bytesPerPixel s.buf.depth + b) =
            some (BitVec.ofNat 8 ((pack s.buf.depth c).toNat >>> (8 * b)))) ∧
        ∀ a,
          (∀ i j b, i ≤ 1 → j ≤ 1 → b < bytesPerPixel s.buf.depth →
            a ≠ s.buf.base.toNat + (2 * y.toNat + j) * s.buf.stride.toNat +
              (2 * x.toNat + i) * bytesPerPixel s.buf.depth + b) →
            Memory.read t.mem a = Memory.read s.mem a

/-- R26, R56: under the host's duties no command writes a byte outside the buffer region. -/
def Obligations.CommandsStayInsideTheBuffer : Prop :=
  ∀ (i : Instr) (s t : State), s.buf.Duties → exec i s = .next t →
    (∀ e ∈ commandWrites i s, ∀ a, e.covers a → s.buf.InBuffer a) ∧
      ∀ a, ¬s.buf.InBuffer a → Memory.read t.mem a = Memory.read s.mem a

/-! ## 42_line.md -/

/-- R60, LINE: the plot events of `DrawLine`, all with its color, each written as a plot event writes. -/
def Obligations.LineRunsDrawLine : Prop :=
  (∀ (x0 y0 x1 y1 : Int) (c : BitVec 16) (s : State),
    ∃ t, exec (.line x0 y0 x1 y1 c) s = .next t ∧ t.buf = s.buf ∧ s.Retired t ∧
      t.mem =
        performAll ((drawLine s.line ⟨x0, y0, x1, y1⟩).points.flatMap fun p => s.buf.plotWrites c p) s.mem) ∧
  (∀ w : CommandWord,
    let f := CommandFields.ofWord w
    f.opc = 0x11#8 →
      if f.rsv = 0 then decode w = .ok (.line f.a0.toInt f.a1.toInt f.a2.toInt f.a3.toInt f.c)
      else decode w = .error .reservedNonzero) ∧
  ∀ r : LineRegs, (drawLine r ⟨0, 0, 5, 0⟩).points = [⟨0, 0⟩, ⟨1, 0⟩, ⟨2, 0⟩, ⟨3, 0⟩, ⟨4, 0⟩, ⟨5, 0⟩]

/-- R61, R62: the first plot event of every line is its end point with the smaller y, or the given first end point when
the y are equal. -/
def Obligations.LineStartPointIsAlwaysPlotted : Prop :=
  ∀ (r : LineRegs) (x0 y0 x1 y1 : Int),
    (drawLine r ⟨x0, y0, x1, y1⟩).points.head? = some (if y0 > y1 then ⟨x1, y1⟩ else ⟨x0, y0⟩)

/-- R64, 90_conflicts.md C1: a zero-length line is one plot event. -/
def Obligations.ZeroLengthLinePlotsOnePoint : Prop :=
  ∀ (r : LineRegs) (x y : Int), (drawLine r ⟨x, y, x, y⟩).points = [⟨x, y⟩]

/-- R65: the plot events of a horizontal line. -/
def Obligations.HorizontalLineEvents : Prop :=
  ∀ (r : LineRegs) (x0 x1 y : Int),
    (drawLine r ⟨x0, y, x1, y⟩).points =
      (List.range ((x1 - x0).natAbs + 1)).map fun k => ⟨if x0 ≤ x1 then x0 + k else x0 - k, y⟩

/-- R66: the plot events of a vertical line; "`dy` more plot events, the last at `(x0, y1)`". -/
def Obligations.VerticalLineEvents : Prop :=
  ∀ (r : LineRegs) (x y0 y1 : Int), y0 < y1 →
    (drawLine r ⟨x, y0, x, y1⟩).points = (List.range ((y1 - y0).toNat + 1)).map fun k => ⟨x, y0 + k⟩

/-- R67: the plot events of a diagonal line. -/
def Obligations.DiagonalLineEvents : Prop :=
  ∀ (r : LineRegs) (x0 y0 x1 y1 : Int), y0 < y1 → ((x1 - x0).natAbs : Int) = y1 - y0 →
    (drawLine r ⟨x0, y0, x1, y1⟩).points =
      (List.range ((y1 - y0).toNat + 1)).map fun k => ⟨if x0 ≤ x1 then x0 + k else x0 - k, y0 + k⟩

/-- R68 in closed form: after `k` passes the wrapping accumulator has carried `k · step / 65536` times. That the carry
of the 16-bit accumulator counts the overflows is the spec's own inference in R68. -/
def Obligations.GeneralLineEvents : Prop :=
  ∀ (r : LineRegs) (x0 y0 x1 y1 : Int) (dx dy : Nat), y0 < y1 → x0 ≠ x1 → dx = (x1 - x0).natAbs →
    (dy : Int) = y1 - y0 → dx ≠ dy → dx ≤ 65535 → dy ≤ 65535 →
      let step := min dx dy * 65536 / max dx dy
      let x (n : Nat) : Int := if x0 ≤ x1 then x0 + n else x0 - n
      (drawLine r ⟨x0, y0, x1, y1⟩).points =
        (List.range (max dx dy)).map (fun k =>
            if dx < dy then ⟨x (k * step / 65536), y0 + k⟩ else ⟨x k, y0 + (k * step / 65536 : Nat)⟩) ++
          [⟨x1, y1⟩]

/-- R68, derived facts (the spec's own inference): the step fits 16 bits and is never 0; of the `major - 1` passes of
the general case, `(major - 1) · step / 65536` carry, which is `minor - 1` or `minor - 2`. A pass carries if the
accumulator it leaves and the one it found satisfy `carry`. -/
def Obligations.LineStepAndCarryCount : Prop :=
  ∀ r : LineRegs, 1 ≤ r.minor → r.minor < r.major → r.major ≤ 65535 →
    let loaded := r.load .general
    let passes := LineRegs.walk .general loaded.cnt loaded
    let carries := ((loaded :: passes).zip passes).countP fun p => carry p.2.acc p.1.acc
    1 ≤ r.errorStep ∧ r.errorStep ≤ 65535 ∧ passes.length = r.major - 1 ∧
      carries = (r.major - 1) * r.errorStep / 65536 ∧ (carries + 1 = r.minor ∨ carries + 2 = r.minor)

/-- R69 (b): `max(dx, dy) + 1` plot events in every case. -/
def Obligations.LineEventCount : Prop :=
  ∀ (r : LineRegs) (x0 y0 x1 y1 : Int),
    (drawLine r ⟨x0, y0, x1, y1⟩).points.length = max (x1 - x0).natAbs (y1 - y0).natAbs + 1

/-- R69 (c): y never decreases, x never moves against the line's direction, each by at most 1 per event, but for the
last event of the general case, which may move the minor coordinate by 2. -/
def Obligations.LineEventsAreMonotonic : Prop :=
  ∀ (r : LineRegs) (x0 y0 x1 y1 : Int) (k : Nat) (p q : Point), y0 ≤ y1 →
    (x1 - x0).natAbs ≤ 65535 → (y1 - y0).natAbs ≤ 65535 →
    (drawLine r ⟨x0, y0, x1, y1⟩).points[k]? = some p → (drawLine r ⟨x0, y0, x1, y1⟩).points[k + 1]? = some q →
      let last := k + 2 = (drawLine r ⟨x0, y0, x1, y1⟩).points.length
      p.y ≤ q.y ∧ (x0 ≤ x1 → p.x ≤ q.x) ∧ (x1 ≤ x0 → q.x ≤ p.x) ∧
        q.y - p.y ≤ (if last ∧ y0 ≠ y1 ∧ (y1 - y0).natAbs < (x1 - x0).natAbs then 2 else 1) ∧
        ((q.x - p.x).natAbs : Int) ≤
          (if last ∧ x0 ≠ x1 ∧ (x1 - x0).natAbs < (y1 - y0).natAbs then 2 else 1)

/-- R69 (d): exchanging the end points gives the identical sequence, or for equal y the reverse one. -/
def Obligations.LineEndpointOrder : Prop :=
  ∀ (r r' : LineRegs) (x0 y0 x1 y1 : Int),
    (y0 ≠ y1 → (drawLine r ⟨x0, y0, x1, y1⟩).points = (drawLine r' ⟨x1, y1, x0, y0⟩).points) ∧
      (y0 = y1 → (drawLine r ⟨x0, y0, x1, y1⟩).points = (drawLine r' ⟨x1, y1, x0, y0⟩).points.reverse)

/-! ## 43_ellipse.md -/

/-- R72: the degenerate inputs, alike for ELLIPSE and FELLIPSE. The event sequences of the two lines are the spec's own
inference in R72, from R65 and R66. -/
def Obligations.DegenerateEllipseEvents : Prop :=
  ∀ (r : LineRegs) (e : EllipseRegs) (cx cy : Int) (n : Nat),
    ellipsePoints r e cx cy 0 0 = some [⟨cx, cy⟩] ∧ fellipsePoints r e cx cy 0 0 = some [⟨cx, cy⟩] ∧
    (n ≠ 0 →
      ellipsePoints r e cx cy 0 n = some ((List.range (2 * n + 1)).map fun k => ⟨cx, cy - n + k⟩) ∧
      fellipsePoints r e cx cy 0 n = some ((List.range (2 * n + 1)).map fun k => ⟨cx, cy - n + k⟩) ∧
      ellipsePoints r e cx cy n 0 = some ((List.range (2 * n + 1)).map fun k => ⟨cx - n + k, cy⟩) ∧
      fellipsePoints r e cx cy n 0 = some ((List.range (2 * n + 1)).map fun k => ⟨cx - n + k, cy⟩))

/-- R73, R74, R75, R77: what the steps are, without the model's budget in sight: the first step's values, the
projections of every step, the update between two steps, and that the loop goes on exactly while `i > h`. -/
def Obligations.EllipseStepsFollowTheRecurrence : Prop :=
  ∀ (b : Nat) (e : EllipseRegs) (cx cy : Int) (rx ry : Nat) (ps : List EllipseRegs),
    ellipseLoop b (e.setup cx cy rx ry) = some ps →
      let m : Int := max rx ry
      let n : Int := min rx ry
      (∃ p, ps.head? = some p ∧ p.ix = 0 ∧ p.iy = 64 * m ∧ p.oh = none ∧ p.oi = none ∧ p.oj = none ∧ p.ok = none) ∧
      (∀ p ∈ ps, p.h = (p.ix + 8) / 64 ∧ p.i = (p.iy + 8) / 64 ∧ p.j = p.h * n / m ∧ p.k = p.i * n / m) ∧
      (∀ (k : Nat) (p q : EllipseRegs), ps[k]? = some p → ps[k + 1]? = some q →
        p.i > p.h ∧ q.ix = p.ix + p.iy / m ∧ q.iy = p.iy - q.ix / m ∧
          q.oh = some p.h ∧ q.oi = some p.i ∧ q.oj = some p.j ∧ q.ok = some p.k) ∧
      ∃ p, ps.getLast? = some p ∧ p.i ≤ p.h

/-- R78 (a), (c), (d), which the spec gives as derived, (c) from an enumeration: for radii that are not both 0 the
loop ends within the model's budget (log 13), a larger budget changes nothing, and no step reads a negative angle. -/
def Obligations.EllipseLoopEnds : Prop :=
  ∀ (e : EllipseRegs) (cx cy : Int) (rx ry : Nat), 1 ≤ max rx ry →
    ∃ ps, (∀ b, 2 * max rx ry + 2 ≤ b → ellipseLoop b (e.setup cx cy rx ry) = some ps) ∧
      ∀ p ∈ ps, 0 ≤ p.ix ∧ 0 ≤ p.iy

/-- R83: the ranges that size a datapath, at every step. -/
def Obligations.EllipseRegistersStayInRange : Prop :=
  ∀ (b : Nat) (e : EllipseRegs) (cx cy : Int) (rx ry : Nat) (ps : List EllipseRegs), 1 ≤ max rx ry →
    ellipseLoop b (e.setup cx cy rx ry) = some ps →
      ∀ p ∈ ps, 0 ≤ p.ix ∧ p.ix ≤ 64 * (max rx ry : Nat) ∧ 0 ≤ p.iy ∧ p.iy ≤ 64 * (max rx ry : Nat) ∧
        0 ≤ p.h ∧ p.h ≤ (max rx ry : Nat) ∧ 0 ≤ p.i ∧ p.i ≤ (max rx ry : Nat) ∧
        0 ≤ p.j ∧ p.j ≤ (min rx ry : Nat) ∧ 0 ≤ p.k ∧ p.k ≤ (min rx ry : Nat)

/-- R70, R76, R79, R80: outline mode: eight plot events for each step whose tuple differs from the one before it. That
the steps end within `2 max(rx, ry) + 2` rests on the model's budget (log 13) and on R78 (d), which the spec derives. -/
def Obligations.EllipseOutlineEvents : Prop :=
  ∀ (r : LineRegs) (e : EllipseRegs) (cx cy : Int) (rx ry : Nat), 1 ≤ rx → 1 ≤ ry →
    ∃ ps, ellipseLoop (2 * max rx ry + 2) (e.setup cx cy rx ry) = some ps ∧
      let changed (p : EllipseRegs) : Bool :=
        (p.oh, p.oi, p.oj, p.ok) ≠ (some p.h, some p.i, some p.j, some p.k)
      let four (w d : Int) : List Point :=
        [⟨cx - w, cy + d⟩, ⟨cx + w, cy + d⟩, ⟨cx - w, cy - d⟩, ⟨cx + w, cy - d⟩]
      ellipsePoints r e cx cy rx ry =
        some ((ps.filter changed).flatMap fun p =>
          if rx ≥ ry then four p.h p.k ++ four p.i p.j else four p.j p.i ++ four p.k p.h)

/-- R71, R76, R79, R81: fill mode: the spans of each step whose tuple differs from the one before it, the lower half's
row before the upper's, each from left to right, and one span, the wider, where the two rows are equal. That the steps
end within `2 max(rx, ry) + 2` rests on the model's budget (log 13) and on R78 (d), which the spec derives. -/
def Obligations.FellipseSpanEvents : Prop :=
  ∀ (r : LineRegs) (e : EllipseRegs) (cx cy : Int) (rx ry : Nat), 1 ≤ rx → 1 ≤ ry →
    ∃ ps, ellipseLoop (2 * max rx ry + 2) (e.setup cx cy rx ry) = some ps ∧
      let changed (p : EllipseRegs) : Bool :=
        (p.oh, p.oi, p.oj, p.ok) ≠ (some p.h, some p.i, some p.j, some p.k)
      let row (w y : Int) : List Point := (List.range (2 * w.toNat + 1)).map fun k => ⟨cx - w + k, y⟩
      let span (w d : Int) : List Point := row w (cy + d) ++ row w (cy - d)
      let both (w1 d1 w2 d2 : Int) : List Point :=
        if d1 ≠ d2 then span w1 d1 ++ span w2 d2 else span (max w1 w2) d1
      fellipsePoints r e cx cy rx ry =
        some ((ps.filter changed).flatMap fun p =>
          if rx ≥ ry then both p.h p.k p.i p.j else both p.j p.i p.k p.h)

/-- R82 (a), which the spec derives: every outline point is also filled, for every pair of radii. That both sequences
exist rests on the model's budget (log 13). -/
def Obligations.FillContainsTheOutline : Prop :=
  ∀ (r r' : LineRegs) (e e' : EllipseRegs) (cx cy : Int) (rx ry : Nat),
    ∃ outline fill, ellipsePoints r e cx cy rx ry = some outline ∧ fellipsePoints r' e' cx cy rx ry = some fill ∧
      ∀ p ∈ outline, p ∈ fill

/-- R82 (b): the point sets are symmetric about the centre's column and row. -/
def Obligations.EllipsePointSetsAreSymmetric : Prop :=
  ∀ (r : LineRegs) (e : EllipseRegs) (cx cy : Int) (rx ry : Nat) (ps : List Point),
    ellipsePoints r e cx cy rx ry = some ps ∨ fellipsePoints r e cx cy rx ry = some ps →
      ∀ p ∈ ps, (⟨2 * cx - p.x, p.y⟩ : Point) ∈ ps ∧ (⟨p.x, 2 * cy - p.y⟩ : Point) ∈ ps

/-- R82 (c): the extreme points are reached exactly. -/
def Obligations.EllipseReachesItsExtremes : Prop :=
  ∀ (r : LineRegs) (e : EllipseRegs) (cx cy : Int) (rx ry : Nat) (ps : List Point),
    ellipsePoints r e cx cy rx ry = some ps ∨ fellipsePoints r e cx cy rx ry = some ps →
      (∀ p ∈ ps, cx - rx ≤ p.x ∧ p.x ≤ cx + rx ∧ cy - ry ≤ p.y ∧ p.y ≤ cy + ry) ∧
      (∃ p ∈ ps, p.x = cx - rx) ∧ (∃ p ∈ ps, p.x = cx + rx) ∧ (∃ p ∈ ps, p.y = cy - ry) ∧ ∃ p ∈ ps, p.y = cy + ry

/-- R70, R71, R108: ELLIPSE and FELLIPSE complete on every operand in every state, with the plot events of their rules;
so the guard of log 13 never stops one. Which field of the word holds which operand, and the word that faults. -/
def Obligations.EllipseCommandsComplete : Prop :=
  (∀ (cx cy : Int) (rx ry : Nat) (c : BitVec 16) (s : State),
    (∃ t ps, exec (.ellipse cx cy rx ry c) s = .next t ∧ ellipsePoints s.line s.ell cx cy rx ry = some ps ∧
      t.buf = s.buf ∧ s.Retired t ∧ t.mem = performAll (ps.flatMap fun p => s.buf.plotWrites c p) s.mem) ∧
    ∃ t ps, exec (.fellipse cx cy rx ry c) s = .next t ∧ fellipsePoints s.line s.ell cx cy rx ry = some ps ∧
      t.buf = s.buf ∧ s.Retired t ∧ t.mem = performAll (ps.flatMap fun p => s.buf.plotWrites c p) s.mem) ∧
  ∀ w : CommandWord,
    let f := CommandFields.ofWord w
    (f.opc = 0x12#8 →
      if f.rsv = 0 then decode w = .ok (.ellipse f.a0.toInt f.a1.toInt f.a2.toNat f.a3.toNat f.c)
      else decode w = .error .reservedNonzero) ∧
    (f.opc = 0x13#8 →
      if f.rsv = 0 then decode w = .ok (.fellipse f.a0.toInt f.a1.toInt f.a2.toNat f.a3.toNat f.c)
      else decode w = .error .reservedNonzero)

/-! ## 60_exceptions.md -/

/-- R100, R104: taking a decode fault. -/
def Obligations.DecodeFaultIsTaken : Prop :=
  ∀ (s : State) (f : DecodeFault), s.fault = false → s.busy = true → s.hostMove = none →
    decode s.latch.toWord = .error f →
      ∃ t, step s = .next t ∧ t.fault = true ∧ t.busy = false ∧
        t.cause = (match f with | .illegalOpcode => 1#4 | .reservedNonzero => 2#4) ∧
        t.status = (match f with | .illegalOpcode => 0x12#32 | .reservedNonzero => 0x22#32) ∧
        t.buf = s.buf ∧ t.mem = s.mem ∧ t.port = s.port ∧ t.host = s.spendWait.host

/-- R105: after a fault nothing but reset moves the block: its descriptor, status and held word stay. -/
def Obligations.FaultedBlockIsStuckUntilReset : Prop :=
  ∀ s t : State, s.fault = true → s.host.head? ≠ some .reset → step s = .next t →
    t.fault = true ∧ t.cause = s.cause ∧ t.busy = s.busy ∧ t.buf = s.buf ∧ t.latch = s.latch ∧
      ∀ w, s.port = some w → t.port = some w

/-! ## 70_reset_and_hazards.md -/

/-- R120, R122: the reset event. -/
def Obligations.ResetEventClearsTheBlock : Prop :=
  ∀ (s : State) (rest : List HostEvent), s.host = .reset :: rest →
    ∃ t, step s = .next t ∧
      t.buf = { base := 0#32, width := 0#16, height := 0#16, stride := 0#32, depth := .d16 } ∧ t.status = 0#32 ∧
      t.busy = false ∧ t.fault = false ∧ t.cause = 0#4 ∧ t.port = s.port ∧ t.host = rest ∧
      (s.busy = false → t.mem = s.mem)

/-- R121: reset while a command executes leaves some prefix of its write events performed, each whole. -/
def Obligations.ResetWhileBusyLeavesAPrefix : Prop :=
  ∀ (s : State) (rest : List HostEvent) (i : Instr), s.host = .reset :: rest → s.busy = true →
    decode s.latch.toWord = .ok i →
      ∃ t n, step s = .next t ∧ n ≤ (commandWrites i s).length ∧
        t.mem = performAll ((commandWrites i s).take n) s.mem ∧ t.busy = false

/-- R128: the write events of each command. -/
def Obligations.WriteEventCounts : Prop :=
  ∀ s : State,
    (∀ base, commandWrites (.setbase base) s = []) ∧
    (∀ width height stride depth, commandWrites (.setgeom width height stride depth) s = []) ∧
    (commandWrites .clear s).length = s.buf.stride.toNat * s.buf.height.toNat ∧
    (∀ x y c, (commandWrites (.plot x y c) s).length = 0 ∨ (commandWrites (.plot x y c) s).length = 4) ∧
    ∀ x0 y0 x1 y1 c, (commandWrites (.line x0 y0 x1 y1 c) s).length =
      4 * ((drawLine s.line ⟨x0, y0, x1, y1⟩).points.filter fun p => !s.buf.dropped p).length

/-! ## All commands and all steps -/

/-- R8, R27, R37: every command, in every state, completes: its write events are performed in order, the descriptor is
as its rule says, and it retires. For the two ellipses this rests on the model's budget (log 13). -/
def Obligations.EveryCommandCompletes : Prop :=
  ∀ (i : Instr) (s : State), ∃ t, exec i s = .next t ∧ t.mem = performAll (commandWrites i s) s.mem ∧
    t.buf = i.descriptorAfter s.buf ∧ s.Retired t

/-- R27 (d), R104: the frame of the commands that reach memory: descriptor, fault fields, port and host plan stay, and
so does every byte that no write event of the command covers. -/
def Obligations.DrawingCommandsFrame : Prop :=
  ∀ (i : Instr) (s t : State), i.reachesMemory = true → exec i s = .next t →
    t.buf = s.buf ∧ s.Retired t ∧ ∀ a, ¬Touched (commandWrites i s) a → Memory.read t.mem a = Memory.read s.mem a

/-- R108, R109, R127: no step of any state stops: neither a fault of the model nor a refusal is ever answered. -/
def Obligations.NoStepEverStops : Prop :=
  ∀ s : State, ∃ t, step s = .next t

/-- Every step keeps the invariant: memory in canonical form, `BUSY` and `FAULT` never both 1, `CAUSE` as R12 and R100
say it reads. The canonical form is the model's (log 9). -/
def Obligations.EveryStepKeepsTheInvariant : Prop :=
  ∀ s t : State, s.Inv → step s = .next t → t.Inv

/-- The invariant holds right after reset. -/
def Obligations.InvariantHoldsAtReset : Prop := State.reset.Inv
end

