-- ==== Sys2Proof/Laws/Decode.lean ====
section
/-! SUPPORT. The fields of a word and the opcode map (30_encoding.md R30, R32, R34). -/

namespace Sys2Proof

@[simp] theorem CommandFields.ofWord_toWord (f : CommandFields) : CommandFields.ofWord f.toWord = f := by
  obtain ⟨opc, rsv, c, a3, a2, a1, a0⟩ := f
  simp only [CommandFields.ofWord, CommandFields.toWord, CommandFields.mk.injEq]
  refine ⟨?_, ?_, ?_, ?_, ?_, ?_, ?_⟩ <;>
  · apply BitVec.eq_of_getLsbD_eq
    intro i hi
    simp only [BitVec.getLsbD_extractLsb', BitVec.getLsbD_append, hi, decide_true, Bool.true_and]
    split_ifs <;> first | omega | (congr 1; omega)

@[simp] theorem CommandFields.toWord_ofWord (w : CommandWord) : (CommandFields.ofWord w).toWord = w := by
  apply BitVec.eq_of_getLsbD_eq
  intro i hi
  simp only [CommandFields.ofWord, CommandFields.toWord, BitVec.getLsbD_extractLsb', BitVec.getLsbD_append]
  split_ifs <;> (rw [decide_eq_true (by omega), Bool.true_and]; congr 1; omega)

/-- A word is its seven fields. -/
theorem CommandFields.ofWord_inj {v w : CommandWord} : CommandFields.ofWord v = CommandFields.ofWord w ↔ v = w :=
  ⟨fun h => by rw [← CommandFields.toWord_ofWord v, h, CommandFields.toWord_ofWord], fun h => by rw [h]⟩

@[simp] theorem ofWord_encode (i : Instr) : CommandFields.ofWord (encode i) = i.fields :=
  CommandFields.ofWord_toWord i.fields

@[simp] theorem opcodeOf_code (op : Opcode) : opcodeOf op.code = some op := by cases op <;> rfl

theorem code_of_opcodeOf {b : BitVec 8} {op : Opcode} (h : opcodeOf b = some op) : op.code = b := by
  unfold opcodeOf at h
  split at h <;> simp_all <;> (subst h; apply BitVec.eq_of_toNat_eq; simp_all [Opcode.code])

/-- A bitwise AND of two words is taken field by field. -/
theorem CommandFields.ofWord_and (v w : CommandWord) :
    CommandFields.ofWord (v &&& w) =
      { opc := (CommandFields.ofWord v).opc &&& (CommandFields.ofWord w).opc
        rsv := (CommandFields.ofWord v).rsv &&& (CommandFields.ofWord w).rsv
        c := (CommandFields.ofWord v).c &&& (CommandFields.ofWord w).c
        a3 := (CommandFields.ofWord v).a3 &&& (CommandFields.ofWord w).a3
        a2 := (CommandFields.ofWord v).a2 &&& (CommandFields.ofWord w).a2
        a1 := (CommandFields.ofWord v).a1 &&& (CommandFields.ofWord w).a1
        a0 := (CommandFields.ofWord v).a0 &&& (CommandFields.ofWord w).a0 } := by
  simp only [CommandFields.ofWord, BitVec.extractLsb'_and]

/-- The fields of a row's mask (30_encoding.md R32). -/
theorem Opcode.maskWord_fields (op : Opcode) :
    CommandFields.ofWord op.maskWord =
      match op with
      | .setbase => ⟨0xFF#8, 0xFF#8, 0xFFFF#16, 0xFFFF#16, 0xFFFF#16, 0#16, 0#16⟩
      | .setgeom => ⟨0xFF#8, 0xFF#8, 0xFFFE#16, 0#16, 0#16, 0#16, 0#16⟩
      | .clear => ⟨0xFF#8, 0xFF#8, 0xFFFF#16, 0xFFFF#16, 0xFFFF#16, 0xFFFF#16, 0xFFFF#16⟩
      | .plot => ⟨0xFF#8, 0xFF#8, 0#16, 0xFFFF#16, 0xFFFF#16, 0#16, 0#16⟩
      | .line => ⟨0xFF#8, 0xFF#8, 0#16, 0#16, 0#16, 0#16, 0#16⟩
      | .ellipse => ⟨0xFF#8, 0xFF#8, 0#16, 0#16, 0#16, 0#16, 0#16⟩
      | .fellipse => ⟨0xFF#8, 0xFF#8, 0#16, 0#16, 0#16, 0#16, 0#16⟩ := by
  cases op <;> decide

/-- The fields of a row's match word (30_encoding.md R32). -/
theorem Opcode.matchWord_fields (op : Opcode) :
    CommandFields.ofWord op.matchWord = ⟨op.code, 0#8, 0#16, 0#16, 0#16, 0#16, 0#16⟩ := by
  cases op <;> decide

theorem depth_field_clean : ∀ c : BitVec 16, c &&& 0xFFFE#16 = 0#16 ↔ c = 0#16 ∨ c = 1#16 := by
  intro c
  constructor
  · intro h
    have hi : ∀ k, 0 < k → c.getLsbD k = false := fun k hk => by
      by_cases h16 : k < 16
      · have := congrArg (fun v => v.getLsbD k) h
        simp only [BitVec.getLsbD_and, BitVec.getLsbD_zero] at this
        have hm : (0xFFFE#16).getLsbD k = true := by
          interval_cases k <;> rfl
        simpa [hm] using this
      · exact BitVec.getLsbD_of_ge c k (by omega)
    cases h0 : c.getLsbD 0
    · left
      apply BitVec.eq_of_getLsbD_eq
      intro k _
      rcases Nat.eq_zero_or_pos k with rfl | hk
      · simpa using h0
      · simpa using hi k hk
    · right
      apply BitVec.eq_of_getLsbD_eq
      intro k _
      rcases Nat.eq_zero_or_pos k with rfl | hk
      · rw [h0]; rfl
      · rw [hi k hk]
        have : (1#16).getLsbD k = false := by
          rw [BitVec.getLsbD_one]; simp; omega
        rw [this]
  · rintro (rfl | rfl) <;> rfl

/-- A word matches a row exactly when its opcode is the row's and `RSV` and the row's must-be-zero bits are zero
(30_encoding.md R32, R34; 60_exceptions.md R102). -/
theorem Opcode.matches_iff (op : Opcode) (w : CommandWord) :
    w &&& op.maskWord = op.matchWord ↔
      (CommandFields.ofWord w).opc = op.code ∧ (CommandFields.ofWord w).rsv = 0 ∧
        CommandFields.operandsClean op (CommandFields.ofWord w) := by
  rw [← CommandFields.ofWord_inj, CommandFields.ofWord_and, op.maskWord_fields, op.matchWord_fields]
  have ff8 : ∀ b : BitVec 8, b &&& 0xFF#8 = b := fun b => by rw [show (0xFF#8) = BitVec.allOnes 8 by decide, BitVec.and_allOnes]
  have ff16 : ∀ b : BitVec 16, b &&& 0xFFFF#16 = b := fun b => by rw [show (0xFFFF#16) = BitVec.allOnes 16 by decide, BitVec.and_allOnes]
  have z16 : ∀ b : BitVec 16, b &&& 0#16 = 0#16 := fun b => BitVec.and_zero
  cases op <;>
    simp only [CommandFields.mk.injEq, ff8, ff16, z16, CommandFields.operandsClean, and_true, true_and] <;>
    refine and_congr_right fun _ => ?_
  case setbase => exact and_congr_right fun _ => ⟨fun ⟨x, y, z⟩ => ⟨z, y, x⟩, fun ⟨x, y, z⟩ => ⟨z, y, x⟩⟩
  case setgeom => exact and_congr_right fun _ => depth_field_clean _
  case plot => exact and_congr_right fun _ => and_comm
  all_goals exact Iff.rfl

end Sys2Proof
end

