-- ==== Sys2Proof/Laws/Ellipse.lean ====
section
/-! SUPPORT. The stepping loop of the ellipse rasterizer (43_ellipse.md R74 to R77). -/

namespace Sys2Proof.Machine

@[simp] theorem ellipseLoop_zero (e : EllipseRegs) : ellipseLoop 0 e = none := rfl

/-- What a loop that ended did: it drew its last step, or it drew a step and went on. -/
theorem ellipseLoop_cases {b : Nat} {e : EllipseRegs} {ps : List EllipseRegs} (h : ellipseLoop b e = some ps) :
    ∃ b', b = b' + 1 ∧
      ((e.project.i ≤ e.project.h ∧ ps = [e.project]) ∨
        (e.project.h < e.project.i ∧
          ∃ rest, ellipseLoop b' e.project.remember.update = some rest ∧ ps = e.project :: rest)) := by
  cases b with
  | zero => simp at h
  | succ b' =>
    refine ⟨b', rfl, ?_⟩
    simp only [ellipseLoop] at h
    split_ifs at h with hi
    · obtain ⟨rest, hr, rfl⟩ := Option.map_eq_some_iff.mp h
      exact Or.inr ⟨hi, rest, hr, rfl⟩
    · exact Or.inl ⟨not_lt.mp hi, (Option.some.inj h).symm⟩

/-- A larger budget changes nothing about a loop that ended. -/
theorem ellipseLoop_mono {b : Nat} {e : EllipseRegs} {ps : List EllipseRegs} (h : ellipseLoop b e = some ps) (k : Nat) :
    ellipseLoop (b + k) e = some ps := by
  induction b generalizing e ps with
  | zero => simp at h
  | succ b ih =>
    obtain ⟨b', hb, hc⟩ := ellipseLoop_cases h
    obtain rfl : b = b' := by omega
    rw [Nat.add_right_comm]
    rcases hc with ⟨hi, rfl⟩ | ⟨hi, rest, hr, rfl⟩
    · simp [ellipseLoop, not_lt.mpr hi]
    · simp [ellipseLoop, hi, ih hr]

/-- The centre, the radii, the divisor and the other radius stay as they are in every step. -/
theorem EllipseRegs.step_fixed (e : EllipseRegs) :
    e.project.remember.update.cx = e.cx ∧ e.project.remember.update.cy = e.cy ∧
      e.project.remember.update.rx = e.rx ∧ e.project.remember.update.ry = e.ry ∧
      e.project.remember.update.m = e.m ∧ e.project.remember.update.n = e.n :=
  ⟨rfl, rfl, rfl, rfl, rfl, rfl⟩

/-- What the setup of an ellipse leaves, whatever the registers held (43_ellipse.md R73, R74). -/
theorem EllipseRegs.setup_fields (e : EllipseRegs) (cx cy : Int) (rx ry : Nat) :
    (e.setup cx cy rx ry).m = max rx ry ∧ (e.setup cx cy rx ry).n = min rx ry ∧ (e.setup cx cy rx ry).ix = 0 ∧
      (e.setup cx cy rx ry).iy = 64 * max rx ry ∧ (e.setup cx cy rx ry).oh = none := by
  refine ⟨?_, ?_, rfl, ?_, rfl⟩ <;> simp only [EllipseRegs.setup, ellShift] <;> split_ifs <;> push_cast <;> omega

end Sys2Proof.Machine
end

