-- ==== Sys2Proof/Laws/Line.lean ====
section
/-! SUPPORT. The line rasterizer: what setup, loading and the passes of a loop leave (42_line.md R61 to R68). -/

namespace Sys2Proof.Machine

@[simp] theorem LineRegs.walk_zero (k : LineCase) (r : LineRegs) : LineRegs.walk k 0 r = [] := rfl

@[simp] theorem LineRegs.walk_succ (k : LineCase) (n : Nat) (r : LineRegs) :
    LineRegs.walk k (n + 1) r = r.advance k :: LineRegs.walk k n (r.advance k) := rfl

/-- A loop repeats its body exactly as often as it says (00_scope.md R7). -/
@[simp] theorem LineRegs.walk_length (k : LineCase) (n : Nat) (r : LineRegs) :
    (LineRegs.walk k n r).length = n := by
  induction n generalizing r with
  | zero => rfl
  | succ n ih => simp [ih]

/-- The end point, the deltas, the direction and the step stay as they are in every pass. -/
theorem LineRegs.advance_fixed (k : LineCase) (r : LineRegs) :
    (r.advance k).x1 = r.x1 ∧ (r.advance k).y1 = r.y1 ∧ (r.advance k).dx = r.dx ∧ (r.advance k).dy = r.dy ∧
      (r.advance k).xdir = r.xdir ∧ (r.advance k).step = r.step := by
  cases k
  case general =>
    unfold LineRegs.advance
    by_cases h : r.dx < r.dy
    · simp [h]
    · simp [h]
  all_goals exact ⟨rfl, rfl, rfl, rfl, rfl, rfl⟩

/-- Normalisation leaves `y0 ≤ y1` (42_line.md R61). -/
theorem Segment.normalise_le (g : Segment) : g.normalise.y0 ≤ g.normalise.y1 := by
  unfold Segment.normalise
  split_ifs with h
  · exact le_of_lt h
  · exact le_of_not_gt h

/-- What every line's setup leaves, whatever the registers held (42_line.md R61, R63). -/
theorem LineRegs.setup_fields (r : LineRegs) (g : Segment) :
    (r.setup g).x0 = g.normalise.x0 ∧ (r.setup g).y0 = g.normalise.y0 ∧ (r.setup g).x1 = g.normalise.x1 ∧
      (r.setup g).y1 = g.normalise.y1 ∧ (r.setup g).dx = (g.normalise.x1 - g.normalise.x0).natAbs ∧
      ((r.setup g).dy : Int) = g.normalise.y1 - g.normalise.y0 :=
  ⟨rfl, rfl, rfl, rfl, rfl, Int.toNat_of_nonneg (by have := g.normalise_le; omega)⟩

/-- The first plot event is the start point (42_line.md R62). -/
@[simp] theorem drawLine_head (r : LineRegs) (g : Segment) :
    (drawLine r g).points.head? = some (r.setup g).point := rfl

@[simp] theorem drawLines_nil (r : LineRegs) : drawLines r [] = [] := rfl

@[simp] theorem drawLines_cons (r : LineRegs) (g : Segment) (gs : List Segment) :
    drawLines r (g :: gs) = (drawLine r g).points ++ drawLines (drawLine r g).regs gs := rfl

end Sys2Proof.Machine
end

