-- ==== Sys2Proof/Laws/Memory.lean ====
section
/-! SUPPORT. Memory: read after write, and that every operation keeps the canonical form. -/

namespace Sys2Proof.Machine

/-! ## One byte -/

theorem Memory.read_write_same (m : Memory) (a : Nat) (v : Byte) :
    Memory.read (Memory.write m a v) a = some v := by
  induction m with
  | nil => simp [Memory.write, Memory.read]
  | cons c rest ih =>
    unfold Memory.write
    split_ifs with h h'
    · simp [Memory.read]
    · simp [Memory.read]
    · rw [Memory.read, if_neg (Ne.symm h'), ih]

theorem Memory.read_write_other (m : Memory) {a b : Nat} (v : Byte) (h : b ≠ a) :
    Memory.read (Memory.write m a v) b = Memory.read m b := by
  induction m with
  | nil => simp [Memory.write, Memory.read, Ne.symm h]
  | cons c rest ih =>
    unfold Memory.write
    split_ifs with h1 h2
    · rw [Memory.read, if_neg (Ne.symm h)]
    · rw [Memory.read, Memory.read, if_neg (Ne.symm h), if_neg (by omega)]
    · rw [Memory.read, Memory.read, ih]

theorem Memory.wfFrom_write (m : Memory) {a lo : Nat} (v : Byte) (hlo : lo ≤ a) (ha : a < 2 ^ 32)
    (h : Memory.wfFrom lo m = true) : Memory.wfFrom lo (Memory.write m a v) = true := by
  induction m generalizing lo with
  | nil => simp [Memory.write, Memory.wfFrom]; omega
  | cons c rest ih =>
    simp only [Memory.wfFrom, Bool.and_eq_true, decide_eq_true_eq] at h
    unfold Memory.write
    split_ifs with h1 h2
    · simp only [Memory.wfFrom, Bool.and_eq_true, decide_eq_true_eq]
      exact ⟨⟨hlo, ha⟩, ⟨by omega, h.1.2⟩, h.2⟩
    · subst h2
      simp only [Memory.wfFrom, Bool.and_eq_true, decide_eq_true_eq]
      exact ⟨⟨hlo, ha⟩, h.2⟩
    · simp only [Memory.wfFrom, Bool.and_eq_true, decide_eq_true_eq]
      exact ⟨h.1, ih (by omega) h.2⟩

/-- A write keeps the canonical form. -/
theorem Memory.wf_write (m : Memory) {a : Nat} (v : Byte) (ha : a < 2 ^ 32) (h : Memory.wf m = true) :
    Memory.wf (Memory.write m a v) = true :=
  Memory.wfFrom_write m v (Nat.zero_le a) ha h

/-! ## Write events -/

theorem WriteEvent.wf_bytesInto (e : WriteEvent) (k : Nat) (m : Memory) (h : Memory.wf m = true) :
    Memory.wf (e.bytesInto k m) = true := by
  induction k with
  | zero => exact h
  | succ b ih => exact Memory.wf_write _ _ (Nat.mod_lt _ (by norm_num)) ih

/-- A write event keeps the canonical form. -/
theorem WriteEvent.wf_perform (e : WriteEvent) (m : Memory) (h : Memory.wf m = true) :
    Memory.wf (e.perform m) = true := e.wf_bytesInto e.n m h

theorem WriteEvent.read_bytesInto_other (e : WriteEvent) (k : Nat) (m : Memory) {a : Nat}
    (h : ∀ b, b < k → a ≠ (e.addr.toNat + b) % 2 ^ 32) :
    Memory.read (e.bytesInto k m) a = Memory.read m a := by
  induction k with
  | zero => rfl
  | succ b ih =>
    rw [WriteEvent.bytesInto, Memory.read_write_other _ _ (h b (by omega))]
    exact ih fun b' hb' => h b' (by omega)

/-- "a write event changes only its own `n` bytes" (20_memory.md R27 (d)). -/
theorem WriteEvent.read_perform_other (e : WriteEvent) (m : Memory) {a : Nat} (h : ¬e.covers a) :
    Memory.read (e.perform m) a = Memory.read m a :=
  e.read_bytesInto_other e.n m fun b hb he => h ⟨b, hb, he⟩

/-! ## Sequences of write events -/

@[simp] theorem performAll_nil (m : Memory) : performAll [] m = m := rfl

@[simp] theorem performAll_cons (e : WriteEvent) (es : List WriteEvent) (m : Memory) :
    performAll (e :: es) m = performAll es (e.perform m) := rfl

theorem performAll_append (es fs : List WriteEvent) (m : Memory) :
    performAll (es ++ fs) m = performAll fs (performAll es m) := by
  induction es generalizing m with
  | nil => rfl
  | cons e es ih => exact ih (e.perform m)

/-- Write events keep the canonical form. -/
theorem wf_performAll (es : List WriteEvent) (m : Memory) (h : Memory.wf m = true) :
    Memory.wf (performAll es m) = true := by
  induction es generalizing m with
  | nil => exact h
  | cons e es ih => exact ih _ (e.wf_perform m h)

/-- Write events change only the bytes they write. -/
theorem read_performAll_other (es : List WriteEvent) (m : Memory) {a : Nat} (h : ∀ e ∈ es, ¬e.covers a) :
    Memory.read (performAll es m) a = Memory.read m a := by
  induction es generalizing m with
  | nil => rfl
  | cons e es ih =>
    rw [performAll_cons, ih _ fun e' he' => h e' (List.mem_cons_of_mem _ he'),
      e.read_perform_other m (h e List.mem_cons_self)]

/-- The memory right after reset is in canonical form. -/
theorem State.reset_mem_wf : Memory.wf State.reset.mem = true := rfl

end Sys2Proof.Machine
end

