-- ==== Sys2Proof/Laws/PerInstr.lean ====
section
/-! SUPPORT. Statements for all commands, one lemma per constructor. The family EncodesItsRow: the word of a command
matches the command's row of the opcode map (30_encoding.md R32, R33). -/

namespace Sys2Proof.Laws

/-- The word of a command matches its row. -/
def EncodesItsRow.Statement (i : Instr) : Prop := encode i &&& i.opcode.maskWord = i.opcode.matchWord

/-- The row is matched once the fields are clean. -/
theorem EncodesItsRow.of_clean {i : Instr} (ho : i.fields.opc = i.opcode.code) (hr : i.fields.rsv = 0)
    (hc : CommandFields.operandsClean i.opcode i.fields) : EncodesItsRow.Statement i := by
  rw [EncodesItsRow.Statement, Opcode.matches_iff, ofWord_encode]
  exact ⟨ho, hr, hc⟩

theorem EncodesItsRow.setbase (base : Addr) : EncodesItsRow.Statement (.setbase base) :=
  EncodesItsRow.of_clean rfl rfl ⟨rfl, rfl, rfl⟩

theorem EncodesItsRow.setgeom (width height : BitVec 16) (stride : BitVec 32) (depth : Depth) :
    EncodesItsRow.Statement (.setgeom width height stride depth) :=
  EncodesItsRow.of_clean rfl rfl (by cases depth; exacts [Or.inl rfl, Or.inr rfl])

theorem EncodesItsRow.clear : EncodesItsRow.Statement .clear :=
  EncodesItsRow.of_clean rfl rfl ⟨rfl, rfl, rfl, rfl, rfl⟩

theorem EncodesItsRow.plot (x y : Int) (c : BitVec 16) : EncodesItsRow.Statement (.plot x y c) :=
  EncodesItsRow.of_clean rfl rfl ⟨rfl, rfl⟩

theorem EncodesItsRow.line (x0 y0 x1 y1 : Int) (c : BitVec 16) :
    EncodesItsRow.Statement (.line x0 y0 x1 y1 c) :=
  EncodesItsRow.of_clean rfl rfl trivial

theorem EncodesItsRow.ellipse (cx cy : Int) (rx ry : Nat) (c : BitVec 16) :
    EncodesItsRow.Statement (.ellipse cx cy rx ry c) :=
  EncodesItsRow.of_clean rfl rfl trivial

theorem EncodesItsRow.fellipse (cx cy : Int) (rx ry : Nat) (c : BitVec 16) :
    EncodesItsRow.Statement (.fellipse cx cy rx ry c) :=
  EncodesItsRow.of_clean rfl rfl trivial

end Sys2Proof.Laws
end

