-- ==== Sys2Proof/Laws/Pixel.lean ====
section
/-! SUPPORT. What the write events of a plot event, of a drawing and of CLEAR are (41_pack_plot.md R53, R54;
40_config_clear.md R42), so that no later proof unfolds them. -/

namespace Sys2Proof.Machine

@[simp] theorem Descriptor.pixelWrite_addr (d : Descriptor) (c : BitVec 16) (px py : Nat) :
    (d.pixelWrite c px py).addr = d.pixAddr px py := rfl

@[simp] theorem Descriptor.pixelWrite_n (d : Descriptor) (c : BitVec 16) (px py : Nat) :
    (d.pixelWrite c px py).n = bytesPerPixel d.depth := rfl

@[simp] theorem Descriptor.pixelWrite_v (d : Descriptor) (c : BitVec 16) (px py : Nat) :
    (d.pixelWrite c px py).v = pack d.depth c := rfl

/-- A native pixel is 2 or 4 bytes. -/
theorem bytesPerPixel_cases (depth : Depth) : bytesPerPixel depth = 2 ∨ bytesPerPixel depth = 4 := by
  cases depth
  · exact Or.inl rfl
  · exact Or.inr rfl

/-- An accepted point, in plain inequalities. -/
theorem Descriptor.dropped_eq_false (d : Descriptor) (p : Point) :
    d.dropped p = false ↔ 0 ≤ p.x ∧ 0 ≤ p.y ∧ p.x < d.xlim ∧ p.y < d.ylim := by
  simp only [Descriptor.dropped, Bool.or_eq_false_iff, decide_eq_false_iff_not, not_lt, not_le, and_assoc]

/-- The write events of a plot event: none if it is dropped, else its four native pixels. -/
theorem Descriptor.mem_plotWrites {d : Descriptor} {c : BitVec 16} {p : Point} {e : WriteEvent} :
    e ∈ d.plotWrites c p ↔ d.dropped p = false ∧
      ∃ i j, i ≤ 1 ∧ j ≤ 1 ∧ e = d.pixelWrite c (2 * p.x.toNat + i) (2 * p.y.toNat + j) := by
  unfold Descriptor.plotWrites
  split_ifs with hd
  · simp [hd]
  · simp only [Bool.not_eq_true] at hd
    simp only [List.mem_cons, List.not_mem_nil, or_false, hd, true_and]
    constructor
    · rintro (rfl | rfl | rfl | rfl)
      exacts [⟨0, 0, by simp⟩, ⟨1, 0, by simp⟩, ⟨0, 1, by simp⟩, ⟨1, 1, by simp⟩]
    · rintro ⟨i, j, hi, hj, rfl⟩
      interval_cases i <;> interval_cases j <;> simp

/-- The write events of a drawing are those of its plot events. -/
theorem Descriptor.mem_drawWrites {d : Descriptor} {c : BitVec 16} {ps : List Point} {e : WriteEvent} :
    e ∈ d.drawWrites c ps ↔ ∃ p ∈ ps, e ∈ d.plotWrites c p := List.mem_flatMap

@[simp] theorem Descriptor.drawWrites_nil (d : Descriptor) (c : BitVec 16) : d.drawWrites c [] = [] := rfl

@[simp] theorem Descriptor.drawWrites_cons (d : Descriptor) (c : BitVec 16) (p : Point) (ps : List Point) :
    d.drawWrites c (p :: ps) = d.plotWrites c p ++ d.drawWrites c ps := rfl

/-- The write events of CLEAR: one zero byte for each row and each byte of it. -/
theorem Descriptor.mem_clearWrites {d : Descriptor} {e : WriteEvent} :
    e ∈ d.clearWrites ↔ ∃ r < d.height.toNat, ∃ b < d.stride.toNat,
      e = { addr := BitVec.ofNat 32 (d.base.toNat + r * d.stride.toNat + b), n := 1, v := 0 } := by
  simp only [Descriptor.clearWrites, List.mem_flatMap, List.mem_map, List.mem_range, eq_comm]

end Sys2Proof.Machine
end

