-- ==== Sys2Proof/Laws/State.lean ====
section
/-! SUPPORT. One lemma per field per update of the state, so that no proof unfolds an update. -/

namespace Sys2Proof.Machine

@[simp] theorem State.perform_buf (s : State) (es : List WriteEvent) : (s.perform es).buf = s.buf := rfl
@[simp] theorem State.perform_busy (s : State) (es : List WriteEvent) : (s.perform es).busy = s.busy := rfl
@[simp] theorem State.perform_fault (s : State) (es : List WriteEvent) : (s.perform es).fault = s.fault := rfl
@[simp] theorem State.perform_cause (s : State) (es : List WriteEvent) : (s.perform es).cause = s.cause := rfl
@[simp] theorem State.perform_latch (s : State) (es : List WriteEvent) : (s.perform es).latch = s.latch := rfl
@[simp] theorem State.perform_line (s : State) (es : List WriteEvent) : (s.perform es).line = s.line := rfl
@[simp] theorem State.perform_ell (s : State) (es : List WriteEvent) : (s.perform es).ell = s.ell := rfl
@[simp] theorem State.perform_mem (s : State) (es : List WriteEvent) : (s.perform es).mem = performAll es s.mem := rfl
@[simp] theorem State.perform_port (s : State) (es : List WriteEvent) : (s.perform es).port = s.port := rfl
@[simp] theorem State.perform_host (s : State) (es : List WriteEvent) : (s.perform es).host = s.host := rfl
@[simp] theorem State.perform_draws (s : State) (es : List WriteEvent) : (s.perform es).draws = s.draws := rfl

@[simp] theorem State.scrub_buf (s : State) : (s.scrub).buf = s.buf := rfl
@[simp] theorem State.scrub_busy (s : State) : (s.scrub).busy = s.busy := rfl
@[simp] theorem State.scrub_fault (s : State) : (s.scrub).fault = s.fault := rfl
@[simp] theorem State.scrub_cause (s : State) : (s.scrub).cause = s.cause := rfl
@[simp] theorem State.scrub_latch (s : State) : (s.scrub).latch = Config.leftoverLatch s.draws := rfl
@[simp] theorem State.scrub_line (s : State) : (s.scrub).line = Config.leftoverLine s.draws := rfl
@[simp] theorem State.scrub_ell (s : State) : (s.scrub).ell = Config.leftoverEllipse s.draws := rfl
@[simp] theorem State.scrub_mem (s : State) : (s.scrub).mem = s.mem := rfl
@[simp] theorem State.scrub_port (s : State) : (s.scrub).port = s.port := rfl
@[simp] theorem State.scrub_host (s : State) : (s.scrub).host = s.host := rfl
@[simp] theorem State.scrub_draws (s : State) : (s.scrub).draws = s.draws + 1 := rfl

@[simp] theorem State.accept_buf (s : State) (w : CommandWord) : (s.accept w).buf = s.buf := rfl
@[simp] theorem State.accept_busy (s : State) (w : CommandWord) : (s.accept w).busy = true := rfl
@[simp] theorem State.accept_fault (s : State) (w : CommandWord) : (s.accept w).fault = s.fault := rfl
@[simp] theorem State.accept_cause (s : State) (w : CommandWord) : (s.accept w).cause = s.cause := rfl
@[simp] theorem State.accept_latch (s : State) (w : CommandWord) : (s.accept w).latch = CommandFields.ofWord w := rfl
@[simp] theorem State.accept_line (s : State) (w : CommandWord) : (s.accept w).line = s.line := rfl
@[simp] theorem State.accept_ell (s : State) (w : CommandWord) : (s.accept w).ell = s.ell := rfl
@[simp] theorem State.accept_mem (s : State) (w : CommandWord) : (s.accept w).mem = s.mem := rfl
@[simp] theorem State.accept_port (s : State) (w : CommandWord) : (s.accept w).port = none := rfl
@[simp] theorem State.accept_host (s : State) (w : CommandWord) : (s.accept w).host = s.host := rfl
@[simp] theorem State.accept_draws (s : State) (w : CommandWord) : (s.accept w).draws = s.draws := rfl

@[simp] theorem State.retire_buf (s : State) : (s.retire).buf = s.buf := rfl
@[simp] theorem State.retire_busy (s : State) : (s.retire).busy = false := rfl
@[simp] theorem State.retire_fault (s : State) : (s.retire).fault = s.fault := rfl
@[simp] theorem State.retire_cause (s : State) : (s.retire).cause = s.cause := rfl
@[simp] theorem State.retire_latch (s : State) : (s.retire).latch = Config.leftoverLatch s.draws := rfl
@[simp] theorem State.retire_line (s : State) : (s.retire).line = Config.leftoverLine s.draws := rfl
@[simp] theorem State.retire_ell (s : State) : (s.retire).ell = Config.leftoverEllipse s.draws := rfl
@[simp] theorem State.retire_mem (s : State) : (s.retire).mem = s.mem := rfl
@[simp] theorem State.retire_port (s : State) : (s.retire).port = s.port := rfl
@[simp] theorem State.retire_host (s : State) : (s.retire).host = s.host := rfl
@[simp] theorem State.retire_draws (s : State) : (s.retire).draws = s.draws + 1 := rfl

@[simp] theorem State.raiseFault_buf (s : State) (f : DecodeFault) : (s.raiseFault f).buf = s.buf := rfl
@[simp] theorem State.raiseFault_busy (s : State) (f : DecodeFault) : (s.raiseFault f).busy = false := rfl
@[simp] theorem State.raiseFault_fault (s : State) (f : DecodeFault) : (s.raiseFault f).fault = true := rfl
@[simp] theorem State.raiseFault_cause (s : State) (f : DecodeFault) :
    (s.raiseFault f).cause = DecodeFault.code f := rfl
@[simp] theorem State.raiseFault_latch (s : State) (f : DecodeFault) :
    (s.raiseFault f).latch = Config.leftoverLatch s.draws := rfl
@[simp] theorem State.raiseFault_line (s : State) (f : DecodeFault) :
    (s.raiseFault f).line = Config.leftoverLine s.draws := rfl
@[simp] theorem State.raiseFault_ell (s : State) (f : DecodeFault) :
    (s.raiseFault f).ell = Config.leftoverEllipse s.draws := rfl
@[simp] theorem State.raiseFault_mem (s : State) (f : DecodeFault) : (s.raiseFault f).mem = s.mem := rfl
@[simp] theorem State.raiseFault_port (s : State) (f : DecodeFault) : (s.raiseFault f).port = s.port := rfl
@[simp] theorem State.raiseFault_host (s : State) (f : DecodeFault) : (s.raiseFault f).host = s.host := rfl
@[simp] theorem State.raiseFault_draws (s : State) (f : DecodeFault) : (s.raiseFault f).draws = s.draws + 1 := rfl

@[simp] theorem State.takeReset_buf (s : State) (es : List WriteEvent) : (s.takeReset es).buf = State.reset.buf := rfl
@[simp] theorem State.takeReset_busy (s : State) (es : List WriteEvent) : (s.takeReset es).busy = false := rfl
@[simp] theorem State.takeReset_fault (s : State) (es : List WriteEvent) : (s.takeReset es).fault = false := rfl
@[simp] theorem State.takeReset_cause (s : State) (es : List WriteEvent) : (s.takeReset es).cause = 0 := rfl
@[simp] theorem State.takeReset_latch (s : State) (es : List WriteEvent) :
    (s.takeReset es).latch = Config.leftoverLatch s.draws := rfl
@[simp] theorem State.takeReset_line (s : State) (es : List WriteEvent) :
    (s.takeReset es).line = Config.leftoverLine s.draws := rfl
@[simp] theorem State.takeReset_ell (s : State) (es : List WriteEvent) :
    (s.takeReset es).ell = Config.leftoverEllipse s.draws := rfl
@[simp] theorem State.takeReset_mem (s : State) (es : List WriteEvent) :
    (s.takeReset es).mem = performAll (if s.busy then es.take (Config.abandonedPrefix s.draws) else []) s.mem := rfl
@[simp] theorem State.takeReset_port (s : State) (es : List WriteEvent) : (s.takeReset es).port = s.port := rfl
@[simp] theorem State.takeReset_host (s : State) (es : List WriteEvent) : (s.takeReset es).host = s.host := rfl
@[simp] theorem State.takeReset_draws (s : State) (es : List WriteEvent) : (s.takeReset es).draws = s.draws + 1 := rfl

@[simp] theorem State.loadCommand_buf (s : State) (w : CommandWord) : (s.loadCommand w).buf = s.buf := rfl
@[simp] theorem State.loadCommand_busy (s : State) (w : CommandWord) : (s.loadCommand w).busy = true := rfl
@[simp] theorem State.loadCommand_fault (s : State) (w : CommandWord) : (s.loadCommand w).fault = false := rfl
@[simp] theorem State.loadCommand_cause (s : State) (w : CommandWord) : (s.loadCommand w).cause = 0 := rfl
@[simp] theorem State.loadCommand_latch (s : State) (w : CommandWord) :
    (s.loadCommand w).latch = CommandFields.ofWord w := rfl
@[simp] theorem State.loadCommand_line (s : State) (w : CommandWord) : (s.loadCommand w).line = s.line := rfl
@[simp] theorem State.loadCommand_ell (s : State) (w : CommandWord) : (s.loadCommand w).ell = s.ell := rfl
@[simp] theorem State.loadCommand_mem (s : State) (w : CommandWord) : (s.loadCommand w).mem = s.mem := rfl
@[simp] theorem State.loadCommand_port (s : State) (w : CommandWord) : (s.loadCommand w).port = s.port := rfl
@[simp] theorem State.loadCommand_host (s : State) (w : CommandWord) : (s.loadCommand w).host = [] := rfl
@[simp] theorem State.loadCommand_draws (s : State) (w : CommandWord) : (s.loadCommand w).draws = s.draws := rfl

@[simp] theorem State.spendWait_buf (s : State) : s.spendWait.buf = s.buf := by
  unfold State.spendWait; split <;> rfl
@[simp] theorem State.spendWait_busy (s : State) : s.spendWait.busy = s.busy := by
  unfold State.spendWait; split <;> rfl
@[simp] theorem State.spendWait_fault (s : State) : s.spendWait.fault = s.fault := by
  unfold State.spendWait; split <;> rfl
@[simp] theorem State.spendWait_cause (s : State) : s.spendWait.cause = s.cause := by
  unfold State.spendWait; split <;> rfl
@[simp] theorem State.spendWait_latch (s : State) : s.spendWait.latch = s.latch := by
  unfold State.spendWait; split <;> rfl
@[simp] theorem State.spendWait_line (s : State) : s.spendWait.line = s.line := by
  unfold State.spendWait; split <;> rfl
@[simp] theorem State.spendWait_ell (s : State) : s.spendWait.ell = s.ell := by
  unfold State.spendWait; split <;> rfl
@[simp] theorem State.spendWait_mem (s : State) : s.spendWait.mem = s.mem := by
  unfold State.spendWait; split <;> rfl
@[simp] theorem State.spendWait_port (s : State) : s.spendWait.port = s.port := by
  unfold State.spendWait; split <;> rfl
@[simp] theorem State.spendWait_draws (s : State) : s.spendWait.draws = s.draws := by
  unfold State.spendWait; split <;> rfl

end Sys2Proof.Machine
end

