-- ==== Sys2Proof/Laws/Step.lean ====
section
/-! SUPPORT. What a command that completes has done, and what one step can do: the two inversion lemmas from which
whole-machine facts are derived. -/

namespace Sys2Proof.Machine

/-- A command that completes has performed its write events, loaded the descriptor as its rule says, and retired. -/
theorem exec_next {i : Instr} {s t : State} (h : exec i s = .next t) :
    t = { s.perform (commandWrites i s) with buf := i.descriptorAfter s.buf }.retire := by
  cases i with
  | setbase base => exact (Host.Outcome.next.inj h).symm
  | setgeom width height stride depth => exact (Host.Outcome.next.inj h).symm
  | clear => exact (Host.Outcome.next.inj h).symm
  | plot x y c => exact (Host.Outcome.next.inj h).symm
  | line x0 y0 x1 y1 c => exact (Host.Outcome.next.inj h).symm
  | ellipse cx cy rx ry c =>
    simp only [exec, execEllipse] at h
    split at h
    · next ps hp =>
      simp only [commandWrites, hp, Option.getD_some, Instr.descriptorAfter]
      exact (Host.Outcome.next.inj h).symm
    · cases h
  | fellipse cx cy rx ry c =>
    simp only [exec, execFellipse] at h
    split at h
    · next ps hp =>
      simp only [commandWrites, hp, Option.getD_some, Instr.descriptorAfter]
      exact (Host.Outcome.next.inj h).symm
    · cases h

/-- The one stop a command can have is the guard of log 13, and only in the two ellipse commands. -/
theorem exec_outcome (i : Instr) (s : State) :
    (∃ t, exec i s = .next t) ∨
      (exec i s = .fault .ellipseUnfinished ∧
        ∃ cx cy rx ry c, i = .ellipse cx cy rx ry c ∧ ellipsePoints s.line s.ell cx cy rx ry = none ∨
          i = .fellipse cx cy rx ry c ∧ fellipsePoints s.line s.ell cx cy rx ry = none) := by
  cases i with
  | setbase base => exact Or.inl ⟨_, rfl⟩
  | setgeom width height stride depth => exact Or.inl ⟨_, rfl⟩
  | clear => exact Or.inl ⟨_, rfl⟩
  | plot x y c => exact Or.inl ⟨_, rfl⟩
  | line x0 y0 x1 y1 c => exact Or.inl ⟨_, rfl⟩
  | ellipse cx cy rx ry c =>
    cases hp : ellipsePoints s.line s.ell cx cy rx ry with
    | some ps => exact Or.inl ⟨(s.perform (s.buf.drawWrites c ps)).retire, by simp only [exec, execEllipse, hp]⟩
    | none => exact Or.inr ⟨by simp only [exec, execEllipse, hp], cx, cy, rx, ry, c, Or.inl ⟨rfl, hp⟩⟩
  | fellipse cx cy rx ry c =>
    cases hp : fellipsePoints s.line s.ell cx cy rx ry with
    | some ps => exact Or.inl ⟨(s.perform (s.buf.drawWrites c ps)).retire, by simp only [exec, execFellipse, hp]⟩
    | none => exact Or.inr ⟨by simp only [exec, execFellipse, hp], cx, cy, rx, ry, c, Or.inr ⟨rfl, hp⟩⟩

/-- What a host move is. -/
theorem hostMove_cases {s t : State} (h : s.hostMove = some t) :
    (∃ rest, s.host = .reset :: rest ∧ t = { s with host := rest }.takeReset s.latchedWrites) ∨
      (∃ w rest, s.host = .present w :: rest ∧ s.port = none ∧ t = { s with port := some w, host := rest }) ∨
      (∃ a v rest, s.host = .store a v :: rest ∧ (s.busy && s.buf.inRegion a) = false ∧
        t = { s with mem := Memory.write s.mem a.toNat v, host := rest }) := by
  unfold State.hostMove at h
  split at h
  · cases h
  · next rest hh => exact Or.inl ⟨rest, hh, (Option.some.inj h).symm⟩
  · next w rest hh =>
    split at h
    · next hp => exact Or.inr (Or.inl ⟨w, rest, hh, hp, (Option.some.inj h).symm⟩)
    · cases h
  · next a v rest hh =>
    split_ifs at h with hb
    exact Or.inr (Or.inr ⟨a, v, rest, hh, by simpa using hb, (Option.some.inj h).symm⟩)
  · cases h

/-- What an engine move that answers a next state is: stuck after a fault, a command run to its end, a decode fault
taken, a word accepted, or idle. -/
theorem engineMove_cases {s t : State} (h : s.engineMove = .next t) :
    (s.fault = true ∧ t = s) ∨
      (s.fault = false ∧ s.busy = true ∧ ∃ i, decode s.latch.toWord = .ok i ∧ exec i s = .next t) ∨
      (s.fault = false ∧ s.busy = true ∧ ∃ f, decode s.latch.toWord = .error f ∧ t = s.raiseFault f) ∨
      (s.fault = false ∧ s.busy = false ∧ ∃ w, s.port = some w ∧ t = s.accept w) ∨
      (s.fault = false ∧ s.busy = false ∧ s.port = none ∧ t = s) := by
  unfold State.engineMove at h
  split_ifs at h with hf hb
  · exact Or.inl ⟨hf, by simpa [eq_comm] using h⟩
  · have hf' : s.fault = false := by simpa using hf
    split at h
    · next i hd => exact Or.inr (Or.inl ⟨hf', hb, i, hd, h⟩)
    · next f hd => exact Or.inr (Or.inr (Or.inl ⟨hf', hb, f, hd, by simpa [eq_comm] using h⟩))
  · have hf' : s.fault = false := by simpa using hf
    have hb' : s.busy = false := by simpa using hb
    split at h
    · next w hp => exact Or.inr (Or.inr (Or.inr (Or.inl ⟨hf', hb', w, hp, by simpa [eq_comm] using h⟩)))
    · next hp => exact Or.inr (Or.inr (Or.inr (Or.inr ⟨hf', hb', hp, by simpa [eq_comm] using h⟩)))

/-- What a step that answers a next state is: the host's move, or the engine's. -/
theorem step_cases {s t : State} (h : step s = .next t) :
    s.hostMove = some t ∨ (s.hostMove = none ∧ s.spendWait.engineMove = .next t) := by
  unfold step State.move at h
  split at h
  · next u hu => exact Or.inl (by rw [hu]; simpa using h)
  · next hu => exact Or.inr ⟨hu, h⟩

end Sys2Proof.Machine
end

