-- ==== Sys2Proof/Machine/Assembler.lean ====
section
/-! DEFINITION. Reading one line of the assembly text of 30_encoding.md R36 (log 14). No state of the machine depends on
it. -/

namespace Sys2Proof.Machine

/-- Why a line is no command. -/
inductive AsmError where
  /-- The line is none of the forms of 30_encoding.md R36. -/
  | badSyntax
  /-- An operand lies outside its range: "an assembly error, not a truncation" (30_encoding.md R36). -/
  | outOfRange
  deriving DecidableEq, Repr, Inhabited

/-- A blank inside a line. -/
def isBlank (c : Char) : Bool := c = ' ' || c = '\t'

/-- The text without blanks at either end. -/
def trimBlanks (cs : List Char) : List Char := ((cs.dropWhile isBlank).reverse.dropWhile isBlank).reverse

/-- The pieces between commas. -/
def splitCommas (cs : List Char) : List (List Char) :=
  match cs with
  | [] => [[]]
  | c :: rest =>
    if c = ',' then [] :: splitCommas rest
    else
      match splitCommas rest with
      | [] => [[c]]
      | piece :: pieces => (c :: piece) :: pieces

/-- The value of a digit, in base 16 or 10. -/
def digitValue (base : Nat) (c : Char) : Option Nat :=
  let n := c.toNat
  let v :=
    if 48 ≤ n ∧ n ≤ 57 then n - 48
    else if 97 ≤ n ∧ n ≤ 102 then n - 87
    else if 65 ≤ n ∧ n ≤ 70 then n - 55
    else base
  if v < base then some v else none

/-- The number that digits spell after the value read so far. -/
def readDigits (base acc : Nat) (cs : List Char) : Option Nat :=
  match cs with
  | [] => some acc
  | c :: rest =>
    match digitValue base c with
    | some v => readDigits base (acc * base + v) rest
    | none => none

/-- A number of at least one digit. -/
def readNumber (base : Nat) (cs : List Char) : Except AsmError Nat :=
  match cs, readDigits base 0 cs with
  | _ :: _, some v => .ok v
  | _, _ => .error .badSyntax

/-- An integer: decimal, "optionally with a leading `-`", or hexadecimal with `0x` (30_encoding.md R36). -/
def readInt (cs : List Char) : Except AsmError Int :=
  match cs with
  | '-' :: digits => (readNumber 10 digits).map fun v => -(v : Int)
  | '0' :: 'x' :: digits => (readNumber 16 digits).map fun v => (v : Int)
  | digits => (readNumber 10 digits).map fun v => (v : Int)

/-- The integers of a list of operands. -/
def readInts (ops : List (List Char)) : Except AsmError (List Int) :=
  match ops with
  | [] => .ok []
  | op :: rest =>
    match readInt op, readInts rest with
    | .ok v, .ok vs => .ok (v :: vs)
    | .error e, _ => .error e
    | .ok _, .error e => .error e

/-- An unsigned operand of `n` bits, in range (30_encoding.md R31). -/
def asWord (n : Nat) (v : Int) : Except AsmError (BitVec n) :=
  if 0 ≤ v ∧ v < 2 ^ n then .ok (BitVec.ofInt n v) else .error .outOfRange

/-- The word of a command whose operands are in range (30_encoding.md R33, R36). -/
def wordOf (i : Instr) : Except AsmError CommandWord :=
  match assemble i with
  | some w => .ok w
  | none => .error .outOfRange

/-- The drawing commands of five operands: coordinates and a color, or a centre, radii and a color. -/
def readFive (make : Int → Int → Int → Int → BitVec 16 → Except AsmError CommandWord) (ops : List (List Char)) :
    Except AsmError CommandWord :=
  match readInts ops with
  | .ok [a, b, c, d, e] => (asWord 16 e).bind (make a b c d)
  | .ok _ => .error .badSyntax
  | .error e => .error e

/-- An ellipse command, whose radii are not negative (30_encoding.md R31). -/
def readEllipse (make : Int → Int → Nat → Nat → BitVec 16 → Instr) (ops : List (List Char)) :
    Except AsmError CommandWord :=
  readFive (fun cx cy rx ry c =>
    if 0 ≤ rx ∧ 0 ≤ ry then wordOf (make cx cy rx.toNat ry.toNat c) else .error .outOfRange) ops

/-- The depth operand (30_encoding.md R36). -/
def readDepth (cs : List Char) : Except AsmError Depth :=
  if cs = ['d', '1', '6'] then .ok .d16 else if cs = ['d', '2', '4'] then .ok .d24 else .error .badSyntax

/-- SETGEOM's operands. -/
def readSetgeom (ops : List (List Char)) : Except AsmError CommandWord :=
  match ops with
  | [w, h, s, d] =>
    (readInt w).bind fun w => (readInt h).bind fun h => (readInt s).bind fun s => (readDepth d).bind fun depth =>
      (asWord 16 w).bind fun w => (asWord 16 h).bind fun h => (asWord 32 s).bind fun s =>
        wordOf (.setgeom w h s depth)
  | _ => .error .badSyntax

/-- `.word 0x<24 hex digits>`: any word (30_encoding.md R36). -/
def readWord (ops : List (List Char)) : Except AsmError CommandWord :=
  match ops with
  | [('0' :: 'x' :: digits)] =>
    if digits.length = 24 then (readNumber 16 digits).map (BitVec.ofNat 96) else .error .badSyntax
  | _ => .error .badSyntax

/-- A mnemonic with its operands (30_encoding.md R36). -/
def readCommand (mnemonic : List Char) (ops : List (List Char)) : Except AsmError CommandWord :=
  if mnemonic = ['s', 'e', 't', 'b', 'a', 's', 'e'] then
    match readInts ops with
    | .ok [base] => (asWord 32 base).bind fun base => wordOf (.setbase base)
    | .ok _ => .error .badSyntax
    | .error e => .error e
  else if mnemonic = ['s', 'e', 't', 'g', 'e', 'o', 'm'] then readSetgeom ops
  else if mnemonic = ['c', 'l', 'e', 'a', 'r'] then
    match ops with
    | [] => wordOf .clear
    | _ :: _ => .error .badSyntax
  else if mnemonic = ['p', 'l', 'o', 't'] then
    match readInts ops with
    | .ok [x, y, c] => (asWord 16 c).bind fun c => wordOf (.plot x y c)
    | .ok _ => .error .badSyntax
    | .error e => .error e
  else if mnemonic = ['l', 'i', 'n', 'e'] then readFive (fun x0 y0 x1 y1 c => wordOf (.line x0 y0 x1 y1 c)) ops
  else if mnemonic = ['e', 'l', 'l', 'i', 'p', 's', 'e'] then readEllipse .ellipse ops
  else if mnemonic = ['f', 'e', 'l', 'l', 'i', 'p', 's', 'e'] then readEllipse .fellipse ops
  else if mnemonic = ['.', 'w', 'o', 'r', 'd'] then readWord ops
  else .error .badSyntax

/-- One line: no word for a blank line or a comment, else one word (30_encoding.md R36). -/
def readLine (cs : List Char) : Except AsmError (Option CommandWord) :=
  let text := trimBlanks (cs.takeWhile fun c => c ≠ '#')
  match text with
  | [] => .ok none
  | _ :: _ =>
    let operands := trimBlanks (text.dropWhile fun c => !isBlank c)
    let ops := if operands = [] then [] else (splitCommas operands).map trimBlanks
    (readCommand (text.takeWhile fun c => !isBlank c) ops).map some

end Sys2Proof.Machine
end

