-- ==== Sys2Proof/Tests/Slice0.lean ====
section
/-! SUPPORT. The model's own tests. Expected values are copied from 95_test_vectors.md (the vector is named at each) or
from the rule named there. The witnesses at the end show that the hypotheses of the obligations can be met together. -/

namespace Sys2Proof.Tests

open Sys2Proof.Machine

/-! ## Small states -/

/-- Descriptor A of 95_test_vectors.md section 2.4. -/
def descA : Descriptor := { base := 0x1000, width := 16, height := 12, stride := 32, depth := .d16 }

/-- Descriptor B of 95_test_vectors.md section 2.4. -/
def descB : Descriptor := { base := 0x2000, width := 24, height := 12, stride := 100, depth := .d24 }

/-- An idle block with descriptor A. -/
def idleA : State := { State.reset with buf := descA }

/-- An idle block with descriptor B. -/
def idleB : State := { State.reset with buf := descB }

/-- A block with descriptor A that executes the given word. -/
def runA (w : CommandWord) : State := idleA.loadCommand w

/-- A block with descriptor A after a decode fault. -/
def faultedA : State := { idleA with fault := true, cause := 1 }

/-- The state after, for a step that answers one. -/
def after : Host.Outcome State Fault Refusal → Option State
  | .next t => some t
  | .fault _ => none
  | .refused _ => none

/-- The plot events of a line, from the working registers reset leaves. -/
def lineEvents (x0 y0 x1 y1 : Int) : List (Int × Int) :=
  (drawLine State.reset.line ⟨x0, y0, x1, y1⟩).points.map fun p => (p.x, p.y)

/-- The plot events of an outline, from the working registers reset leaves. -/
def outlineEvents (cx cy : Int) (rx ry : Nat) : Option (List (Int × Int)) :=
  (ellipsePoints State.reset.line State.reset.ell cx cy rx ry).map (List.map fun p => (p.x, p.y))

/-- The plot events of a fill, from the working registers reset leaves. -/
def fillEvents (cx cy : Int) (rx ry : Nat) : Option (List (Int × Int)) :=
  (fellipsePoints State.reset.line State.reset.ell cx cy rx ry).map (List.map fun p => (p.x, p.y))

/-! ## WellFormed: one term for each check, refused (30_encoding.md R31, R36) -/

theorem test_coordinate_below_range_is_refused : (Instr.plot (-32769) 0 0).wellFormed = false := by decide

theorem test_coordinate_above_range_is_refused : (Instr.plot 0 32768 0).wellFormed = false := by decide

theorem test_each_line_coordinate_is_checked :
    (Instr.line 32768 0 0 0 0).wellFormed = false ∧ (Instr.line 0 32768 0 0 0).wellFormed = false ∧
      (Instr.line 0 0 32768 0 0).wellFormed = false ∧ (Instr.line 0 0 0 (-32769) 0).wellFormed = false := by decide

theorem test_each_ellipse_operand_is_checked :
    (Instr.ellipse 32768 0 1 1 0).wellFormed = false ∧ (Instr.ellipse 0 (-32769) 1 1 0).wellFormed = false ∧
      (Instr.ellipse 0 0 65536 1 0).wellFormed = false ∧ (Instr.ellipse 0 0 1 65536 0).wellFormed = false := by decide

theorem test_each_fellipse_operand_is_checked :
    (Instr.fellipse (-32769) 0 1 1 0).wellFormed = false ∧ (Instr.fellipse 0 32768 1 1 0).wellFormed = false ∧
      (Instr.fellipse 0 0 65536 1 0).wellFormed = false ∧ (Instr.fellipse 0 0 1 65536 0).wellFormed = false := by decide

theorem test_range_error_is_no_word :
    assemble (.ellipse 0 0 65536 1 0) = none ∧
      assemble (.ellipse (-5) 7 65535 0 0x0080) = some 0x120000800000FFFF0007FFFB#96 := by decide

/-! ## Decode: words written out from the spec's encodings (V-D1, V-D2, V-D3, V-D4) -/

theorem test_decode_setbase :
    decode 0x010000000000000000001000#96 = .ok (.setbase 0x00001000) ∧
      decode 0x0100000000000000FFFFFFFE#96 = .ok (.setbase 0xFFFFFFFE) := ⟨rfl, rfl⟩

theorem test_decode_setgeom :
    decode 0x0200000000000020000C0010#96 = .ok (.setgeom 16 12 32 .d16) ∧
      decode 0x0200000100000064000C0018#96 = .ok (.setgeom 24 12 100 .d24) ∧
      decode 0x020000000001234500080008#96 = .ok (.setgeom 8 8 0x12345 .d16) := ⟨rfl, rfl, rfl⟩

theorem test_decode_clear : decode 0x030000000000000000000000#96 = .ok .clear := rfl

theorem test_decode_plot :
    decode 0x100000FF0000000000020003#96 = .ok (.plot 3 2 0x00FF) ∧
      decode 0x1000FFFF000000008000FFFF#96 = .ok (.plot (-1) (-32768) 0xFFFF) := ⟨rfl, rfl⟩

theorem test_decode_line :
    decode 0x110000FF0003000A0002FFFF#96 = .ok (.line (-1) 2 10 3 0x00FF) ∧
      decode 0x1100FFFFFFFFFFFFFFFFFFFF#96 = .ok (.line (-1) (-1) (-1) (-1) 0xFFFF) := ⟨rfl, rfl⟩

theorem test_decode_ellipse :
    decode 0x120000800000FFFF0007FFFB#96 = .ok (.ellipse (-5) 7 65535 0 0x0080) ∧
      decode 0x12008000FFFF800080007FFF#96 = .ok (.ellipse 32767 (-32768) 32768 65535 0x8000) := ⟨rfl, rfl⟩

theorem test_decode_fellipse :
    decode 0x130000FF00010001000A000A#96 = .ok (.fellipse 10 10 1 1 0x00FF) ∧
      decode 0x130000000000000000000000#96 = .ok (.fellipse 0 0 0 0 0) := ⟨rfl, rfl⟩

/-- R31: the operand fields of V-D2's ELLIPSE word, all different, under the opcode of FELLIPSE. -/
theorem test_decode_fellipse_fields :
    decode 0x13008000FFFF800080007FFF#96 = .ok (.fellipse 32767 (-32768) 32768 65535 0x8000) := rfl

theorem test_decode_illegal_opcode :
    decode 0x000000000000000000000000#96 = .error .illegalOpcode ∧
      decode 0xFFFFFFFFFFFFFFFFFFFFFFFF#96 = .error .illegalOpcode ∧
      decode 0x040000000000000000000000#96 = .error .illegalOpcode ∧
      decode 0x0F0000000000000000000000#96 = .error .illegalOpcode ∧
      decode 0x140000000000000000000000#96 = .error .illegalOpcode ∧
      decode 0x20FF00050004000300020001#96 = .error .illegalOpcode := ⟨rfl, rfl, rfl, rfl, rfl, rfl⟩

theorem test_decode_reserved_nonzero :
    decode 0x110100FF0000000500000000#96 = .error .reservedNonzero ∧
      decode 0x010000000000000100001000#96 = .error .reservedNonzero ∧
      decode 0x010000010000000000001000#96 = .error .reservedNonzero ∧
      decode 0x0200000200000020000C0010#96 = .error .reservedNonzero ∧
      decode 0x030000000000000000000001#96 = .error .reservedNonzero ∧
      decode 0x030080000000000000000000#96 = .error .reservedNonzero ∧
      decode 0x100000FF0000000100020003#96 = .error .reservedNonzero ∧
      decode 0x100000FF8000000000020003#96 = .error .reservedNonzero :=
  ⟨rfl, rfl, rfl, rfl, rfl, rfl, rfl, rfl⟩

theorem test_encode_gives_the_words_of_the_spec :
    encode (.setbase 0xFFFFFFFE) = 0x0100000000000000FFFFFFFE#96 ∧
      encode (.setgeom 65535 65535 0xFFFFFFFF .d24) = 0x02000001FFFFFFFFFFFFFFFF#96 ∧
      encode .clear = 0x030000000000000000000000#96 ∧
      encode (.plot (-1) (-32768) 0xFFFF) = 0x1000FFFF000000008000FFFF#96 ∧
      encode (.line 0 0 (-3) 3 0xFF) = 0x110000FF0003FFFD00000000#96 ∧
      encode (.ellipse 32767 0 65535 0 0xFF) = 0x120000FF0000FFFF00007FFF#96 ∧
      encode (.fellipse 10 10 1 1 0xFF) = 0x130000FF00010001000A000A#96 := by decide

theorem test_assembly_text :
    (Instr.setgeom 24 12 100 .d24).asm = "setgeom 24, 12, 100, d24" ∧
      (Instr.line (-1) 2 10 3 0xFF).asm = "line -1, 2, 10, 3, 255" := by decide

/-- V-D1, and the errors of R36. -/
theorem test_assembly_lines :
    readLine "setgeom 24, 12, 100, d24  # Depth24".toList = .ok (some 0x0200000100000064000C0018#96) ∧
      readLine "line -1, 2, 10, 3, 0x00FF".toList = .ok (some 0x110000FF0003000A0002FFFF#96) ∧
      readLine ".word 0x20FF00050004000300020001".toList = .ok (some 0x20FF00050004000300020001#96) ∧
      readLine "# nothing".toList = .ok none ∧
      readLine "ellipse 0, 0, -1, 1, 0".toList = .error .outOfRange ∧
      readLine "plot 32768, 0, 0".toList = .error .outOfRange ∧
      readLine "plot 1, 2".toList = .error .badSyntax := ⟨rfl, rfl, rfl, rfl, rfl, rfl, rfl⟩

/-! ## SETBASE, SETGEOM, CLEAR -/

/-- V-C1. -/
theorem test_setbase_from_reset :
    (after (step (State.reset.withFetchWord 96 0x010000000000000000001000))).map (fun t => (t.buf, t.status, t.mem)) =
      some ({ base := 0x1000, width := 0, height := 0, stride := 0, depth := .d16 }, 0, []) := by decide

/-- V-C2. -/
theorem test_setgeom_keeps_the_base :
    (after (exec (.setgeom 24 12 100 .d24) idleA)).map (fun t => (t.buf, t.mem)) =
      some ({ base := 0x1000, width := 24, height := 12, stride := 100, depth := .d24 }, []) := by decide

/-- R42, the example: six byte writes; a byte before and a byte after the region stay. -/
theorem test_clear_zeroes_six_bytes :
    (after (exec .clear
      { State.reset with
        buf := { base := 0x1000, width := 1, height := 2, stride := 3, depth := .d16 }
        mem := [(0xFFF, 0xAA), (0x1002, 0xAA), (0x1006, 0xAA)] })).map (·.mem) =
      some [(0xFFF, 0xAA), (0x1000, 0), (0x1001, 0), (0x1002, 0), (0x1003, 0), (0x1004, 0), (0x1005, 0),
        (0x1006, 0xAA)] := by decide

/-- V-C6: the region wraps at the top of the address space. -/
theorem test_clear_wraps :
    (commandWrites .clear
        { State.reset with buf := { base := 0xFFFFFFFE, width := 4, height := 2, stride := 3, depth := .d16 } }).map
      (fun e => e.addr) = [0xFFFFFFFE, 0xFFFFFFFF, 0, 1, 2, 3] := by decide

/-! ## The packer and PLOT -/

/-- V-K1. -/
theorem test_pack16 :
    [0x0007, 0x0008, 0x0080, 0x00F7, 0x00FF, 0x1234, 0xFF00].map pack16 =
      [0x0000, 0x0841, 0x8410, 0xF79E, 0xFFDF, 0x3186, 0x0000] := by decide

/-- V-K1. -/
theorem test_pack24 : [0x0000, 0x0080, 0x00FF, 0x1234].map pack24 = [0, 0x00808080, 0x00FFFFFF, 0x00343434] := by
  decide

/-- V-P1: the low byte of a pixel lies at the lower address. -/
theorem test_plot_bytes :
    (after (exec (.plot 3 2 0x00FF) idleA)).map (·.mem) =
      some [(0x108C, 0xDF), (0x108D, 0xFF), (0x108E, 0xDF), (0x108F, 0xFF), (0x10AC, 0xDF), (0x10AD, 0xFF),
        (0x10AE, 0xDF), (0x10AF, 0xFF)] := by decide

/-- V-P2, V-P3: the corners of the accepted region. -/
theorem test_plot_corners :
    commandWrites (.plot 10 4 0x1234) idleB =
        [⟨0x2370, 4, 0x00343434⟩, ⟨0x2374, 4, 0x00343434⟩, ⟨0x23D4, 4, 0x00343434⟩, ⟨0x23D8, 4, 0x00343434⟩] ∧
      (commandWrites (.plot 6 4 0x0080) idleA).map (·.addr) = [0x1118, 0x111A, 0x1138, 0x113A] ∧
      commandWrites (.plot 7 4 0x0080) idleA = [] ∧ commandWrites (.plot 6 5 0x0080) idleA = [] ∧
      commandWrites (.plot (-1) 0 0x0080) idleA = [] := by decide

/-! ## LINE -/

/-- S5, the golden trace; V-L10, where the accumulator wraps to exactly 0; V-L13, y-major. -/
theorem test_line_general :
    lineEvents 0 0 10 3 =
        [(0, 0), (1, 0), (2, 0), (3, 0), (4, 1), (5, 1), (6, 1), (7, 2), (8, 2), (9, 2), (10, 3)] ∧
      lineEvents 0 0 4 2 = [(0, 0), (1, 0), (2, 1), (3, 1), (4, 2)] ∧
      lineEvents 0 0 2 3 = [(0, 0), (0, 1), (1, 2), (2, 3)] := by decide

/-- V-L1, V-L2, V-L3, V-L5, V-L7: the other cases, exchange of the end points, leftward lines. -/
theorem test_line_cases :
    lineEvents 5 0 0 0 = [(5, 0), (4, 0), (3, 0), (2, 0), (1, 0), (0, 0)] ∧
      lineEvents 0 5 0 0 = [(0, 0), (0, 1), (0, 2), (0, 3), (0, 4), (0, 5)] ∧
      lineEvents (-3) 3 0 0 = [(0, 0), (-1, 1), (-2, 2), (-3, 3)] ∧ lineEvents 7 7 7 7 = [(7, 7)] ∧
      lineEvents 10 0 0 3 =
        [(10, 0), (9, 0), (8, 0), (7, 0), (6, 1), (5, 1), (4, 1), (3, 2), (2, 2), (1, 2), (0, 3)] := by decide

/-! ## ELLIPSE and FELLIPSE -/

/-- V-E4: the steps of `rx = 5`, `ry = 3`, and V-E6: the step the gate suppresses. -/
theorem test_ellipse_steps :
    (ellipseLoop 12 (State.reset.ell.setup 0 0 5 3)).map (List.map fun p => [p.ix, p.iy, p.h, p.i, p.j, p.k]) =
        some [[0, 320, 0, 5, 0, 3], [64, 308, 1, 4, 0, 2], [125, 283, 2, 4, 1, 2], [181, 247, 2, 3, 1, 1],
          [230, 201, 3, 3, 1, 1]] ∧
      (ellipseSteps State.reset.ell 0 0 1 9).map (List.map fun p => [p.ix, p.h, p.i, p.j, p.k]) =
        some [[0, 0, 9, 0, 1], [64, 1, 9, 0, 1], [127, 2, 8, 0, 0], [188, 3, 8, 0, 0], [303, 4, 7, 0, 0],
          [355, 5, 6, 0, 0], [403, 6, 6, 0, 0]] := by decide

/-- V-E1. -/
theorem test_ellipse_outline :
    outlineEvents 10 10 1 1 =
      some [(10, 11), (10, 11), (10, 9), (10, 9), (9, 10), (11, 10), (9, 10), (11, 10), (9, 10), (11, 10), (9, 10),
        (11, 10), (10, 11), (10, 11), (10, 9), (10, 9)] := by decide

/-- V-E3: equal rows are drawn as one span. -/
theorem test_fellipse_spans :
    fillEvents 0 0 2 2 =
      some [(0, 2), (0, -2), (-2, 0), (-1, 0), (0, 0), (1, 0), (2, 0), (-2, 0), (-1, 0), (0, 0), (1, 0), (2, 0),
        (-1, 1), (0, 1), (1, 1), (-1, -1), (0, -1), (1, -1)] := by decide

/-- V-E7. -/
theorem test_ellipse_degenerate :
    outlineEvents 4 3 0 0 = some [(4, 3)] ∧ fillEvents 4 3 0 0 = some [(4, 3)] ∧
      outlineEvents 4 3 0 2 = some [(4, 1), (4, 2), (4, 3), (4, 4), (4, 5)] ∧
      fillEvents 4 3 3 0 = some [(1, 3), (2, 3), (3, 3), (4, 3), (5, 3), (6, 3), (7, 3)] := by decide

/-- V-E7 on a buffer: the one point of a zero ellipse is the point of PLOT (S8). -/
theorem test_zero_ellipse_is_plot :
    commandWrites (.fellipse 4 3 0 0 0xFF) idleA = commandWrites (.plot 4 3 0xFF) idleA ∧
      (commandWrites (.ellipse 4 3 0 0 0xFF) idleA).length = 4 := by decide

/-! ## Acceptance, faults, reset -/

/-- V-F1. -/
theorem test_fault_entry :
    (after (step (runA 0x200000000000000000000000#96))).map (fun t => (t.status, t.buf, t.mem)) =
      some (0x12, descA, []) := by decide

/-- V-F4. -/
theorem test_reserved_fault :
    (after (step (runA 0x110100FF0000000500000000#96))).map (fun t => (t.status, t.buf, t.mem)) =
      some (0x22, descA, []) := by decide

/-- V-F2: a word presented to a faulted block stays at the port. -/
theorem test_faulted_block_holds_the_word :
    (after (step { faultedA with port := some (encode .clear) })).map (fun t => (t.status, t.port)) =
      some (0x12, some (encode .clear)) := by decide

/-- V-F3: reset clears the fault and keeps the held word. -/
theorem test_reset_clears_a_fault :
    (after (step { faultedA with port := some (encode .clear), host := [.reset] })).map
        (fun t => (t.status, t.buf, t.port)) = some (0, State.reset.buf, some (encode .clear)) := by decide

/-- R37: the word is accepted and `BUSY` is 1. -/
theorem test_acceptance :
    (after (step { idleA with port := some (encode .clear) })).map (fun t => (t.status, t.latch.opc, t.port)) =
      some (1, 3, none) := by decide

/-! ## Witnesses: the hypotheses of each obligation that has some, met together by concrete states and operands -/

/-- Two idle blocks that differ only in the draw counter; a PLOT completes in the first. -/
theorem witness_NoCommandReadsWhatACommandLeft :
    idleA.Agree { idleA with draws := 7 } ∧ ∃ t, exec (.plot 3 2 0xFF) idleA = .next t :=
  ⟨⟨rfl, rfl, rfl, rfl, rfl, rfl, rfl⟩, _, rfl⟩

/-- One step for each way the descriptor changes. -/
theorem witness_OnlyConfigurationChangesTheDescriptor :
    (∃ t, step { idleA with host := [.reset] } = .next t ∧ t.buf ≠ descA) ∧
      (∃ t, step (runA (encode (.setbase 0))) = .next t ∧ t.buf ≠ descA) ∧
      ∃ t, step (runA (encode (.setgeom 0 0 0 .d16))) = .next t ∧ t.buf ≠ descA :=
  ⟨⟨_, rfl, by decide⟩, ⟨_, rfl, by decide⟩, _, rfl, by decide⟩

/-- One step for each way memory changes. -/
theorem witness_MemoryChangesOnlyByDrawingOrTheHost :
    (∃ t, step { idleA with host := [.store 0x1000 1] } = .next t ∧ t.mem ≠ idleA.mem) ∧
      ∃ t, step (runA (encode (.plot 3 2 0xFF))) = .next t ∧ t.mem ≠ idleA.mem :=
  ⟨⟨_, rfl, by decide⟩, _, rfl, by decide⟩

/-- A two-byte event that wraps: its two bytes, and one byte it leaves. -/
theorem witness_MemWriteStoresLittleEndianBytes :
    let e : WriteEvent := { addr := 0xFFFFFFFF, n := 2, v := 0xFFDF }
    e.n ≤ 4 ∧ (0 < e.n ∧ 1 < e.n ∧ (e.addr.toNat + 1) % 2 ^ 32 = 0) ∧
      ∀ b, b < e.n → 1 ≠ (e.addr.toNat + b) % 2 ^ 32 := by decide

/-- A descriptor of each depth. -/
theorem witness_PixelAddressIsExactThenWraps :
    descA.depth = .d16 ∧ descA.pixAddr 6 4 = 0x108C ∧ descB.depth = .d24 ∧ descB.pixAddr 20 8 = 0x2370 := by decide

/-- A write event of each drawing command, and of CLEAR. -/
theorem witness_WriteEventsCarryOneValue :
    ⟨0x1000, 1, 0⟩ ∈ commandWrites .clear { idleA with buf := { descA with height := 1, stride := 1 } } ∧
      ⟨0x108C, 2, 0xFFDF⟩ ∈ commandWrites (.plot 3 2 0xFF) idleA ∧
      ⟨0x108C, 2, 0xFFDF⟩ ∈ commandWrites (.line 3 2 3 2 0xFF) idleA ∧
      ⟨0x108C, 2, 0xFFDF⟩ ∈ commandWrites (.ellipse 3 2 0 0 0xFF) idleA ∧
      ⟨0x108C, 2, 0xFFDF⟩ ∈ commandWrites (.fellipse 3 2 0 0 0xFF) idleA := by decide

/-- The two write orders of a PLOT's events under descriptor A, which keeps the duties. -/
theorem witness_WriteOrderWithinACommandDoesNotMatter :
    idleA.buf.Duties ∧
      (commandWrites (.plot 3 2 0xFF) idleA).reverse.Perm (commandWrites (.plot 3 2 0xFF) idleA) :=
  ⟨⟨by decide, by decide⟩, List.reverse_perm _⟩

/-- The two clauses where they meet: the region's last byte waits while busy; the byte after it does not, and when idle
neither does. -/
theorem witness_HostWritesTheBufferOnlyWhenIdle :
    let s : State := { runA (encode .clear) with host := [.store 0x117F 1] }
    let u : State := { runA (encode .clear) with host := [.store 0x1180 1] }
    (s.host = [.store 0x117F 1] ∧ s.busy = true ∧ s.buf.inRegion 0x117F = true) ∧
      (u.host = [.store 0x1180 1] ∧ u.busy = true ∧ u.buf.inRegion 0x1180 = false) ∧
      { idleA with host := [.store 0x117F 1] }.busy = false := by decide

/-- Well-formed commands at the ends of the operand ranges, and a word that decodes. -/
theorem witness_DecodeAndEncodeAgree :
    (Instr.line (-32768) 32767 32767 (-32768) 0xFFFF).wellFormed = true ∧
      (Instr.ellipse (-32768) 32767 0 65535 0).wellFormed = true ∧
      decode 0x11000000800080007FFF7FFF#96 = .ok (.line 32767 32767 (-32768) (-32768) 0) :=
  ⟨by decide, by decide, rfl⟩

/-- A word of each kind: illegal and dirty, legal and dirty, legal and clean. -/
theorem witness_DecodeFaultsExactlyTheReservedWords :
    decode 0x20FF00050004000300020001#96 = .error .illegalOpcode ∧
      decode 0x010000000000000100001000#96 = .error .reservedNonzero ∧
      decode 0x02000001FFFFFFFFFFFFFFFF#96 = .ok (.setgeom 65535 65535 0xFFFFFFFF .d24) := ⟨rfl, rfl, rfl⟩

/-- An idle block with a word at the port and no host action. -/
theorem witness_AcceptanceLatchesTheWord :
    let s : State := { idleA with port := some (encode .clear) }
    s.busy = false ∧ s.fault = false ∧ s.port = some (encode .clear) ∧ s.hostMove = none := ⟨rfl, rfl, rfl, rfl⟩

/-- A word held while a command executes, and one held after a fault. -/
theorem witness_PresentedWordIsHeld :
    (∃ t, step { runA (encode .clear) with port := some (encode (.setbase 0)) } = .next t) ∧
      (runA (encode .clear)).busy = true ∧
      (∃ t, step { faultedA with port := some (encode .clear) } = .next t) ∧ faultedA.fault = true :=
  ⟨⟨_, rfl⟩, rfl, ⟨_, rfl⟩, rfl⟩

/-- A step in which `BUSY` rises. -/
theorem witness_BusyRisesOnlyByAcceptance :
    ∃ t, step { idleA with port := some (encode .clear) } = .next t ∧ idleA.busy = false ∧ t.busy = true :=
  ⟨_, rfl, rfl, rfl⟩

/-- An executing block whose host waits, and a table row's bits. -/
theorem witness_StepRunsTheDecodedInstruction :
    let s : State := { runA (encode .clear) with host := [.wait, .reset] }
    (s.fault = false ∧ s.busy = true ∧ s.hostMove = none ∧ decode s.latch.toWord = .ok .clear) ∧
      decodeTableWord 96 0x030000000000000000000000 = some .clear := ⟨⟨rfl, rfl, rfl, rfl⟩, rfl⟩

/-- An idle block whose host presents one word. -/
theorem witness_PresentedCommandRetires :
    let s : State := { idleA with host := [.present (encode .clear)] }
    s.busy = false ∧ s.fault = false ∧ s.port = none ∧ s.host = [.present (encode .clear)] ∧
      decode (encode .clear) = .ok .clear := ⟨rfl, rfl, rfl, rfl, rfl⟩

/-- A clean SETBASE word and one with a must-be-zero bit set. -/
theorem witness_SetbaseLoadsTheBase :
    let f := CommandFields.ofWord 0x010000000000000000001000#96
    let g := CommandFields.ofWord 0x010000000000000100001000#96
    (f.opc = 0x01#8 ∧ f.rsv = 0 ∧ f.a2 = 0 ∧ f.a3 = 0 ∧ f.c = 0) ∧ g.opc = 0x01#8 ∧ g.a2 ≠ 0 := by decide

/-- Clean SETGEOM words of both depths and one with `C[1]` set. -/
theorem witness_SetgeomLoadsFourRegisters :
    let f := CommandFields.ofWord 0x0200000100000064000C0018#96
    let g := CommandFields.ofWord 0x0200000000000020000C0010#96
    let h := CommandFields.ofWord 0x0200000200000020000C0010#96
    (f.opc = 0x02#8 ∧ f.rsv = 0 ∧ f.c.extractLsb' 1 15 = 0 ∧ f.c.getLsbD 0 = true) ∧
      (g.opc = 0x02#8 ∧ g.rsv = 0 ∧ g.c.extractLsb' 1 15 = 0 ∧ g.c.getLsbD 0 = false) ∧
      h.opc = 0x02#8 ∧ h.c.extractLsb' 1 15 ≠ 0 := by decide

/-- A region of six bytes: its first and last byte, the bytes beside it; a clean CLEAR word and a dirty one. -/
theorem witness_ClearZeroesEveryByteOfTheRegion :
    let d : Descriptor := { base := 0x1000, width := 1, height := 2, stride := 3, depth := .d16 }
    let n := d.height.toNat * d.stride.toNat
    (0 < n ∧ 5 < n ∧ (∀ k, k < n → 0x0FFF ≠ (d.base.toNat + k) % 2 ^ 32) ∧
      ∀ k, k < n → 0x1006 ≠ (d.base.toNat + k) % 2 ^ 32) ∧
    (CommandFields.ofWord (encode .clear)).opc = 0x03#8 ∧
    (CommandFields.ofWord 0x030000000000000000000001#96).opc = 0x03#8 ∧
    (CommandFields.ofWord 0x030000000000000000000001#96).a0 ≠ 0 := by decide

/-- Width 3 drops every point; the last accepted column and the first dropped one of descriptor A. -/
theorem witness_PlotIsDroppedOutsideTheBounds :
    ({ descA with width := 3 }.width.toNat < 4 ∧ { descA with height := 3 }.height.toNat < 4) ∧
      descA.plotWrites 0xFF ⟨7, 4⟩ = [] ∧ descA.plotWrites 0xFF ⟨6, 4⟩ ≠ [] := by decide

/-- The first and the last accepted point of descriptor A. -/
theorem witness_AcceptedPlotWritesFourPixels :
    (0 < descA.width.toNat / 2 - 1 ∧ 0 < descA.height.toNat / 2 - 1) ∧
      6 < descA.width.toNat / 2 - 1 ∧ 4 < descA.height.toNat / 2 - 1 := by decide

/-- A clean PLOT word and one with `A3` set. -/
theorem witness_PlotRunsOnePlotEvent :
    let f := CommandFields.ofWord 0x100000FF0000000000020003#96
    let g := CommandFields.ofWord 0x100000FF8000000000020003#96
    (f.opc = 0x10#8 ∧ f.rsv = 0 ∧ f.a2 = 0 ∧ f.a3 = 0) ∧ g.opc = 0x10#8 ∧ g.a3 ≠ 0 := by decide

/-- The last accepted point of descriptor A, and of an odd width. -/
theorem witness_AcceptedPixelsStayOffTheLastColumns :
    descA.dropped ⟨6, 4⟩ = false ∧ { descA with width := 7 }.dropped ⟨1, 0⟩ = false := by decide

/-- Descriptor A keeps the duties; a point inside and a point outside; the block's first and last byte and two beside
it. -/
theorem witness_PlottedBlockHoldsThePackedColor :
    idleA.buf.Duties ∧ idleA.buf.dropped ⟨3, 2⟩ = false ∧ idleA.buf.dropped ⟨7, 2⟩ = true ∧
      1 < bytesPerPixel idleA.buf.depth ∧
      ∀ i, i ≤ 1 → ∀ j, j ≤ 1 → ∀ b, b < bytesPerPixel idleA.buf.depth →
        0x108B ≠ 0x1000 + (2 * 2 + j) * 32 + (2 * 3 + i) * 2 + b ∧
          0x1090 ≠ 0x1000 + (2 * 2 + j) * 32 + (2 * 3 + i) * 2 + b :=
  ⟨⟨by decide, by decide⟩, by decide⟩

/-- Descriptor A keeps the duties; a PLOT completes and covers a byte inside; a byte before the region is outside. -/
theorem witness_CommandsStayInsideTheBuffer :
    idleA.buf.Duties ∧ (∃ t, exec (.plot 3 2 0xFF) idleA = .next t) ∧
      (⟨0x108C, 2, 0xFFDF⟩ ∈ commandWrites (.plot 3 2 0xFF) idleA ∧
        WriteEvent.covers ⟨0x108C, 2, 0xFFDF⟩ 0x108D) ∧ ¬idleA.buf.InBuffer 0x0FFF :=
  ⟨⟨by decide, by decide⟩, ⟨_, rfl⟩, ⟨by decide, 1, by decide, by decide⟩, fun h => absurd h.1 (by decide)⟩

/-- A clean LINE word and one with `RSV` set. -/
theorem witness_LineRunsDrawLine :
    let f := CommandFields.ofWord 0x110000FF0003000A0002FFFF#96
    let g := CommandFields.ofWord 0x110100FF0000000500000000#96
    (f.opc = 0x11#8 ∧ f.rsv = 0) ∧ g.opc = 0x11#8 ∧ g.rsv ≠ 0 := by decide

/-- The shortest vertical line. -/
theorem witness_VerticalLineEvents : (0 : Int) < 1 ∧ lineEvents 0 0 0 1 = [(0, 0), (0, 1)] := by decide

/-- A diagonal to each side. -/
theorem witness_DiagonalLineEvents :
    ((0 : Int) < 3 ∧ (((3 : Int) - 0).natAbs : Int) = 3 - 0) ∧ (((-3 : Int) - 0).natAbs : Int) = 3 - 0 := by decide

/-- The shortest general lines, x-major and y-major, and the longest. -/
theorem witness_GeneralLineEvents :
    ((0 : Int) < 1 ∧ (0 : Int) ≠ 2 ∧ 2 = ((2 : Int) - 0).natAbs ∧ ((1 : Nat) : Int) = 1 - 0 ∧ 2 ≠ 1) ∧
      ((0 : Int) < 2 ∧ (0 : Int) ≠ 1 ∧ 1 = ((1 : Int) - 0).natAbs ∧ ((2 : Nat) : Int) = 2 - 0) ∧
      65535 = ((32767 : Int) - (-32768)).natAbs := by decide

/-- The shortest line whose last event jumps two units (V-L9), and one that carries `minor - 1` times (V-L10). -/
theorem witness_LineStepAndCarryCount :
    let r := State.reset.line.setup ⟨0, 0, 273, 272⟩
    let u := State.reset.line.setup ⟨0, 0, 4, 2⟩
    (1 ≤ r.minor ∧ r.minor < r.major ∧ r.major ≤ 65535 ∧ r.errorStep = 65295) ∧
      1 ≤ u.minor ∧ u.minor < u.major ∧ u.major ≤ 65535 ∧
      (LineRegs.walk .general 3 (u.load .general)).map (fun q => q.acc) = [32768, 0, 32768] := by decide

/-- The last two events of a general line, and of a horizontal one. -/
theorem witness_LineEventsAreMonotonic :
    (0 : Int) ≤ 1 ∧ ((2 : Int) - 0).natAbs ≤ 65535 ∧ ((1 : Int) - 0).natAbs ≤ 65535 ∧
      (drawLine State.reset.line ⟨0, 0, 2, 1⟩).points[1]? = some ⟨1, 0⟩ ∧
      (drawLine State.reset.line ⟨0, 0, 2, 1⟩).points[1 + 1]? = some ⟨2, 1⟩ ∧
      (drawLine State.reset.line ⟨0, 0, 1, 0⟩).points[0]? = some ⟨0, 0⟩ ∧
      (drawLine State.reset.line ⟨0, 0, 1, 0⟩).points[0 + 1]? = some ⟨1, 0⟩ := by decide

/-- Both sides: a line with different y, and a horizontal one (V-L7, V-L1). -/
theorem witness_LineEndpointOrder :
    ((0 : Int) ≠ 3 ∧ lineEvents 10 0 0 3 = lineEvents 0 3 10 0) ∧
      lineEvents 5 0 0 0 = (lineEvents 0 0 5 0).reverse := by decide

/-- The smallest radius that is not 0, and the largest a word carries. -/
theorem witness_DegenerateEllipseEvents : (1 : Nat) ≠ 0 ∧ (65535 : Nat) ≠ 0 := by decide

/-- The two steps of `rx = ry = 2` (V-E3). -/
theorem witness_EllipseStepsFollowTheRecurrence :
    ∃ p q : EllipseRegs, ellipseLoop 6 (State.reset.ell.setup 0 0 2 2) = some [p, q] ∧ p.ix = 0 ∧ q.ix = 64 :=
  ⟨_, _, rfl, rfl, rfl⟩

/-- Radii not both 0. -/
theorem witness_EllipseLoopEnds : 1 ≤ max 1 0 ∧ 1 ≤ max 0 65535 := by decide

/-- The loop of `rx = 5`, `ry = 3` ends. -/
theorem witness_EllipseRegistersStayInRange :
    1 ≤ max 5 3 ∧ (ellipseLoop 12 (State.reset.ell.setup 0 0 5 3)).isSome = true := by decide

/-- The smallest radii of the general case, and unequal ones of both branches. -/
theorem witness_EllipseOutlineEvents : (1 ≤ 1 ∧ 1 ≤ 1) ∧ (5 ≥ 3 ∧ ¬3 ≥ 5) := by decide

/-- The smallest radii of the general case. -/
theorem witness_FellipseSpanEvents : 1 ≤ 1 ∧ fillEvents 10 10 1 1 ≠ none := by decide

/-- An outline and a fill, each with a point. -/
theorem witness_EllipsePointSetsAreSymmetric :
    (∃ ps, ellipsePoints State.reset.line State.reset.ell 10 10 1 1 = some ps ∧ ⟨9, 10⟩ ∈ ps) ∧
      ∃ ps, fellipsePoints State.reset.line State.reset.ell 10 10 1 1 = some ps ∧ ⟨10, 11⟩ ∈ ps :=
  ⟨⟨_, rfl, by decide⟩, _, rfl, by decide⟩

/-- An outline, a fill, a degenerate line and a single point. -/
theorem witness_EllipseReachesItsExtremes :
    (outlineEvents 0 0 5 3 ≠ none ∧ fillEvents 0 0 3 5 ≠ none) ∧ outlineEvents 4 3 0 2 ≠ none ∧
      fillEvents 4 3 0 0 ≠ none := by decide

/-- For each opcode a word with `RSV` zero (V-D1) and one with `RSV` set. -/
theorem witness_EllipseCommandsComplete :
    let e := CommandFields.ofWord 0x120000800000FFFF0007FFFB#96
    let d := CommandFields.ofWord 0x120100800000FFFF0007FFFB#96
    let g := CommandFields.ofWord 0x130000FF00010001000A000A#96
    let h := CommandFields.ofWord 0x138000FF00010001000A000A#96
    ((e.opc = 0x12#8 ∧ e.rsv = 0) ∧ d.opc = 0x12#8 ∧ d.rsv ≠ 0) ∧ (g.opc = 0x13#8 ∧ g.rsv = 0) ∧ h.opc = 0x13#8 ∧
      h.rsv ≠ 0 := by decide

/-- A word of each fault, executing in an unfaulted block. -/
theorem witness_DecodeFaultIsTaken :
    let s := runA 0#96
    let u := runA 0x110100FF0000000500000000#96
    (s.fault = false ∧ s.busy = true ∧ s.hostMove = none ∧ decode s.latch.toWord = .error .illegalOpcode) ∧
      u.fault = false ∧ u.busy = true ∧ u.hostMove = none ∧ decode u.latch.toWord = .error .reservedNonzero :=
  ⟨⟨rfl, rfl, rfl, rfl⟩, rfl, rfl, rfl, rfl⟩

/-- A faulted block with a held word, whose host does something other than reset. -/
theorem witness_FaultedBlockIsStuckUntilReset :
    let s : State := { faultedA with port := some (encode .clear), host := [.store 0x1000 1] }
    s.fault = true ∧ s.host.head? ≠ some .reset ∧ (∃ t, step s = .next t) ∧ s.port = some (encode .clear) :=
  ⟨rfl, by decide, ⟨_, rfl⟩, rfl⟩

/-- A reset raised on an idle block. -/
theorem witness_ResetEventClearsTheBlock :
    let s : State := { faultedA with host := [.reset, .wait] }
    s.host = .reset :: [.wait] ∧ s.busy = false := ⟨rfl, rfl⟩

/-- A reset raised while a LINE executes (V-F6). -/
theorem witness_ResetWhileBusyLeavesAPrefix :
    let s : State := { runA 0x110000FF0000000500000000#96 with host := [.reset] }
    s.host = .reset :: [] ∧ s.busy = true ∧ decode s.latch.toWord = .ok (.line 0 0 5 0 0x00FF) ∧
      (commandWrites (.line 0 0 5 0 0x00FF) s).length = 24 := ⟨rfl, rfl, rfl, by decide⟩

/-- Each drawing command completes and leaves byte 0 alone. -/
theorem witness_DrawingCommandsFrame :
    ((Instr.plot 3 2 0xFF).reachesMemory = true ∧ ∃ t, exec (.plot 3 2 0xFF) idleA = .next t) ∧
      ((Instr.fellipse 4 3 0 0 0xFF).reachesMemory = true ∧ ∃ t, exec (.fellipse 4 3 0 0 0xFF) idleA = .next t) ∧
      ¬Touched [⟨0x108C, 2, 0xFFDF⟩] 0 := by
  refine ⟨⟨rfl, _, rfl⟩, ⟨rfl, _, rfl⟩, ?_⟩
  rintro ⟨e, he, b, hb, ha⟩
  obtain rfl := List.mem_singleton.mp he
  revert hb ha
  revert b
  decide

/-- The invariant holds of an executing block and of a faulted one, and each takes a step. -/
theorem witness_EveryStepKeepsTheInvariant :
    ((runA (encode (.plot 3 2 0xFF))).Inv ∧ ∃ t, step (runA (encode (.plot 3 2 0xFF))) = .next t) ∧
      faultedA.Inv ∧ ∃ t, step faultedA = .next t :=
  ⟨⟨⟨by decide, by decide, by decide, by decide⟩, _, rfl⟩, ⟨by decide, by decide, by decide, by decide⟩, _, rfl⟩

end Sys2Proof.Tests
end

/-! PROOFS of the statements about 10_state.md and of the invariant: first what each move keeps, what the rasterizers
read and where the bits of STATUS lie, then the settled statements. -/

namespace Sys2Proof.Machine

/-! ## The invariant (10_state.md R12; 60_exceptions.md R104, R105) -/

theorem DecodeFault.code_cases (f : DecodeFault) : DecodeFault.code f = 1 ∨ DecodeFault.code f = 2 := by
  cases f with
  | illegalOpcode => exact Or.inl rfl
  | reservedNonzero => exact Or.inr rfl

@[simp] theorem State.spendWait_inv (s : State) : s.spendWait.Inv ↔ s.Inv := by
  simp [State.Inv]

theorem State.takeReset_inv {s : State} (es : List WriteEvent) (h : Memory.wf s.mem = true) :
    (s.takeReset es).Inv :=
  ⟨wf_performAll _ _ h, by simp, by simp, by simp⟩

theorem State.raiseFault_inv {s : State} (f : DecodeFault) (h : Memory.wf s.mem = true) : (s.raiseFault f).Inv :=
  ⟨h, by simp, by simp, fun _ => DecodeFault.code_cases f⟩

/-- A word is accepted with `FAULT = 0` only (30_encoding.md R37). -/
theorem State.accept_inv {s : State} (w : CommandWord) (hf : s.fault = false) (h : s.Inv) : (s.accept w).Inv := by
  obtain ⟨hmem, -, hclean, hcause⟩ := h
  exact ⟨hmem, by simp [hf], hclean, hcause⟩

/-- A command that completes leaves the fault fields and retires. -/
theorem exec_inv {i : Instr} {s t : State} (he : exec i s = .next t) (h : s.Inv) : t.Inv := by
  obtain ⟨hmem, -, hclean, hcause⟩ := h
  rw [exec_next he]
  exact ⟨wf_performAll _ _ hmem, by simp, hclean, hcause⟩

theorem hostMove_inv {s t : State} (hm : s.hostMove = some t) (h : s.Inv) : t.Inv := by
  obtain ⟨hmem, hexcl, hclean, hcause⟩ := h
  obtain ⟨rest, -, rfl⟩ | ⟨w, rest, -, -, rfl⟩ | ⟨a, v, rest, -, -, rfl⟩ := hostMove_cases hm
  · exact State.takeReset_inv _ hmem
  · exact ⟨hmem, hexcl, hclean, hcause⟩
  · exact ⟨Memory.wf_write _ v a.isLt hmem, hexcl, hclean, hcause⟩

theorem engineMove_inv {s t : State} (hm : s.engineMove = .next t) (h : s.Inv) : t.Inv := by
  obtain ⟨-, rfl⟩ | ⟨-, -, i, -, he⟩ | ⟨-, -, f, -, rfl⟩ | ⟨hf, -, w, -, rfl⟩ | ⟨-, -, -, rfl⟩ :=
    engineMove_cases hm
  · exact h
  · exact exec_inv he h
  · obtain ⟨hmem, -⟩ := h
    exact State.raiseFault_inv f hmem
  · exact State.accept_inv w hf h
  · exact h

/-! ## Completed commands and the descriptor (10_state.md R11) -/

theorem exec_buf {i : Instr} {s t : State} (h : exec i s = .next t) : t.buf = i.descriptorAfter s.buf := by
  rw [exec_next h]; rfl

/-- The host changes the descriptor by reset only. -/
theorem hostMove_buf {s t : State} (h : s.hostMove = some t) : s.host.head? = some .reset ∨ t.buf = s.buf := by
  obtain ⟨rest, hh, -⟩ | ⟨w, rest, -, -, rfl⟩ | ⟨a, v, rest, -, -, rfl⟩ := hostMove_cases h
  · exact Or.inl (by rw [hh]; rfl)
  · exact Or.inr rfl
  · exact Or.inr rfl

/-- The engine changes the descriptor only by running a command to its end. -/
theorem engineMove_buf {s t : State} (h : s.engineMove = .next t) :
    t.buf = s.buf ∨ s.fault = false ∧ s.busy = true ∧
      ∃ i, decode s.latch.toWord = .ok i ∧ t.buf = i.descriptorAfter s.buf := by
  obtain ⟨-, rfl⟩ | ⟨hf, hb, i, hd, he⟩ | ⟨-, -, f, -, rfl⟩ | ⟨-, -, w, -, rfl⟩ | ⟨-, -, -, rfl⟩ :=
    engineMove_cases h
  · exact Or.inl rfl
  · exact Or.inr ⟨hf, hb, i, hd, exec_buf he⟩
  · exact Or.inl rfl
  · exact Or.inl rfl
  · exact Or.inl rfl

/-! ## BUSY and STATUS (10_state.md R12) -/

theorem hostMove_busy {s t : State} (h : s.hostMove = some t) (hb : s.busy = false) : t.busy = false := by
  obtain ⟨rest, -, rfl⟩ | ⟨w, rest, -, -, rfl⟩ | ⟨a, v, rest, -, -, rfl⟩ := hostMove_cases h
  · exact State.takeReset_busy _ _
  · exact hb
  · exact hb

theorem engineMove_busy_rises {s t : State} (h : s.engineMove = .next t) (hs : s.busy = false) (ht : t.busy = true) :
    s.fault = false ∧ ∃ w, s.port = some w ∧ t = s.accept w := by
  obtain ⟨-, rfl⟩ | ⟨-, hb, -⟩ | ⟨-, hb, -⟩ | ⟨hf, -, w, hp, rfl⟩ | ⟨-, -, -, rfl⟩ := engineMove_cases h
  · simp [hs] at ht
  · simp [hs] at hb
  · simp [hs] at hb
  · exact ⟨hf, w, hp, rfl⟩
  · simp [hs] at ht

/-- The bits of `STATUS` from bit 0 up. Beyond the four bits of `CAUSE` its read gives 0. -/
theorem statusWord_getLsbD (busy fault : Bool) (cause : BitVec 4) (n : Nat) :
    (statusWord busy fault cause).getLsbD n =
      if n = 0 then busy else if n = 1 then fault else if n < 4 then false else cause.getLsbD (n - 4) := by
  change BitVec.getLsbD (w := 24 + 4 + 2 + 1 + 1) _ n = _
  simp only [statusWord, BitVec.getLsbD_append, BitVec.getLsbD_zero]
  match n with
  | 0 | 1 | 2 | 3 => simp
  | k + 4 =>
    by_cases hk : k < 4
    · simp [hk]
    · simp [hk, BitVec.getLsbD_of_ge cause k (by omega)]

/-! ## A buffer without rows and columns writes nothing (10_state.md R19) -/

/-- No plot event is accepted by a buffer without columns (41_pack_plot.md R53). -/
theorem Descriptor.dropped_of_width_zero {d : Descriptor} (h : d.width = 0#16) (p : Point) : d.dropped p = true := by
  rw [← Bool.not_eq_false, Descriptor.dropped_eq_false]
  rintro ⟨hx, -, hlim, -⟩
  simp only [Descriptor.xlim, h, BitVec.toNat_zero] at hlim
  omega

theorem Descriptor.drawWrites_of_width_zero {d : Descriptor} (h : d.width = 0#16) (c : BitVec 16) (ps : List Point) :
    d.drawWrites c ps = [] :=
  List.flatMap_eq_nil_iff.mpr fun p _ => if_pos (Descriptor.dropped_of_width_zero h p)

/-- CLEAR writes nothing of a buffer without rows (40_config_clear.md R42). -/
theorem Descriptor.clearWrites_of_height_zero {d : Descriptor} (h : d.height = 0#16) : d.clearWrites = [] := by
  simp [Descriptor.clearWrites, h]

theorem commandWrites_of_empty_buffer (i : Instr) {s : State} (hw : s.buf.width = 0#16) (hh : s.buf.height = 0#16) :
    commandWrites i s = [] := by
  cases i with
  | setbase | setgeom => rfl
  | clear => exact Descriptor.clearWrites_of_height_zero hh
  | plot x y c => exact if_pos (Descriptor.dropped_of_width_zero hw _)
  | line | ellipse | fellipse => exact Descriptor.drawWrites_of_width_zero hw _ _

/-! ## What the rasterizers read of their working registers (10_state.md R10, R14, R15) -/

/-- Two line register files that a loop of the case `k` cannot tell apart: the accumulator and its step matter in the
general case only (42_line.md R65 to R68). -/
structure LineRegs.SameCourse (k : LineCase) (r r' : LineRegs) : Prop where
  x0 : r.x0 = r'.x0
  y0 : r.y0 = r'.y0
  x1 : r.x1 = r'.x1
  y1 : r.y1 = r'.y1
  xdir : r.xdir = r'.xdir
  dx : r.dx = r'.dx
  dy : r.dy = r'.dy
  cnt : r.cnt = r'.cnt
  acc : k = .general → r.acc = r'.acc
  step : k = .general → r.step = r'.step

/-- Setup and loading write every register the loop reads. -/
theorem LineRegs.sameCourse_load_setup (k : LineCase) (r r' : LineRegs) (g : Segment) :
    ((r.setup g).load k).SameCourse k ((r'.setup g).load k) := by
  cases k with
  | horizontal | vertical | diagonal => exact ⟨rfl, rfl, rfl, rfl, rfl, rfl, rfl, rfl, nofun, nofun⟩
  | general => exact ⟨rfl, rfl, rfl, rfl, rfl, rfl, rfl, rfl, fun _ => rfl, fun _ => rfl⟩

theorem LineRegs.SameCourse.advance {k : LineCase} {r r' : LineRegs} (h : r.SameCourse k r') :
    (r.advance k).SameCourse k (r'.advance k) := by
  obtain ⟨x0, y0, x1, y1, xdir, dx, dy, cnt, acc, step⟩ := h
  cases k with
  | horizontal | vertical | diagonal => constructor <;> simp [LineRegs.advance, *]
  | general =>
    have hacc := acc rfl
    have hstep := step rfl
    by_cases hmajor : r'.dx < r'.dy
    · constructor <;> simp [LineRegs.advance, *]
    · constructor <;> simp [LineRegs.advance, *]

theorem LineRegs.SameCourse.walk_points {k : LineCase} {r r' : LineRegs} (h : r.SameCourse k r') (n : Nat) :
    (LineRegs.walk k n r).map LineRegs.point = (LineRegs.walk k n r').map LineRegs.point := by
  induction n generalizing r r' with
  | zero => rfl
  | succ n ih =>
    simp only [LineRegs.walk_succ, List.map_cons, LineRegs.point, h.advance.x0, h.advance.y0, ih h.advance]

/-- The case of a line is chosen by registers the setup writes. -/
theorem LineRegs.kind_setup_independent (r r' : LineRegs) (g : Segment) : (r.setup g).kind = (r'.setup g).kind := rfl

theorem LineRegs.point_setup_independent (r r' : LineRegs) (g : Segment) :
    (r.setup g).point = (r'.setup g).point := rfl

theorem drawLine_points_independent (r r' : LineRegs) (g : Segment) :
    (drawLine r g).points = (drawLine r' g).points := by
  have hsame := LineRegs.sameCourse_load_setup (r'.setup g).kind r r' g
  simp only [drawLine, LineRegs.kind_setup_independent r r', LineRegs.point_setup_independent r r', hsame.cnt,
    hsame.x1, hsame.y1, hsame.walk_points]

theorem drawLines_independent (r r' : LineRegs) (gs : List Segment) : drawLines r gs = drawLines r' gs := by
  induction gs generalizing r r' with
  | nil => rfl
  | cons g gs ih => rw [drawLines_cons, drawLines_cons, drawLine_points_independent r r', ih]

/-- The projections of a step write all four registers they yield, and the setup writes all others. -/
theorem EllipseRegs.project_setup (e e' : EllipseRegs) (cx cy : Int) (rx ry : Nat) :
    (e.setup cx cy rx ry).project = (e'.setup cx cy rx ry).project := rfl

/-- The loop reads its registers through the projections alone. -/
theorem ellipseLoop_congr {e e' : EllipseRegs} (h : e.project = e'.project) (b : Nat) :
    ellipseLoop b e = ellipseLoop b e' := by
  cases b with
  | zero => rfl
  | succ b => simp only [ellipseLoop, h]

theorem ellipseSteps_independent (e e' : EllipseRegs) (cx cy : Int) (rx ry : Nat) :
    ellipseSteps e cx cy rx ry = ellipseSteps e' cx cy rx ry := by
  rw [ellipseSteps, ellipseSteps, ellipseLoop_congr (EllipseRegs.project_setup e e' cx cy rx ry)]

theorem degeneratePoints_independent (r r' : LineRegs) (cx cy : Int) (rx ry : Nat) :
    degeneratePoints r cx cy rx ry = degeneratePoints r' cx cy rx ry := by
  simp only [degeneratePoints, drawLine_points_independent r r']

theorem ellipsePoints_independent (r r' : LineRegs) (e e' : EllipseRegs) (cx cy : Int) (rx ry : Nat) :
    ellipsePoints r e cx cy rx ry = ellipsePoints r' e' cx cy rx ry := by
  rw [ellipsePoints, ellipsePoints, degeneratePoints_independent r r', ellipseSteps_independent e e']

theorem fellipsePoints_independent (r r' : LineRegs) (e e' : EllipseRegs) (cx cy : Int) (rx ry : Nat) :
    fellipsePoints r e cx cy rx ry = fellipsePoints r' e' cx cy rx ry := by
  rw [fellipsePoints, fellipsePoints, degeneratePoints_independent r r', ellipseSteps_independent e e']
  simp only [drawLines_independent r r']

/-- The write events of a command are a function of its operands and the descriptor. -/
theorem commandWrites_eq_of_buf_eq (i : Instr) {s s' : State} (h : s.buf = s'.buf) :
    commandWrites i s = commandWrites i s' := by
  cases i with
  | setbase | setgeom => rfl
  | clear | plot => simp only [commandWrites, h]
  | line => simp only [commandWrites, h, drawLine_points_independent s.line s'.line]
  | ellipse => simp only [commandWrites, h, ellipsePoints_independent s.line s'.line s.ell s'.ell]
  | fellipse => simp only [commandWrites, h, fellipsePoints_independent s.line s'.line s.ell s'.ell]

/-- Whether a command completes depends on no state. -/
theorem exec_next_of_exec_next {i : Instr} {s t : State} (h : exec i s = .next t) (s' : State) :
    ∃ t', exec i s' = .next t' := by
  refine (exec_outcome i s').resolve_right ?_
  rintro ⟨-, cx, cy, rx, ry, c, ⟨rfl, hp⟩ | ⟨rfl, hp⟩⟩
  · rw [ellipsePoints_independent s'.line s.line s'.ell s.ell] at hp
    simp [exec, execEllipse, hp] at h
  · rw [fellipsePoints_independent s'.line s.line s'.ell s.ell] at hp
    simp [exec, execFellipse, hp] at h

/-! ## The statements -/

/-- Settles O59: a host move and an engine move each keep the invariant. -/
theorem everyStepKeepsTheInvariant : Obligations.EveryStepKeepsTheInvariant := by
  intro s t h hs
  obtain hm | ⟨-, hm⟩ := step_cases hs
  · exact hostMove_inv hm h
  · exact engineMove_inv hm ((State.spendWait_inv s).mpr h)

/-- Settles O1: a command completes from both states, with the same write events and the same descriptor. -/
theorem noCommandReadsWhatACommandLeft : Obligations.NoCommandReadsWhatACommandLeft := by
  intro i s s' t hagree hs
  obtain ⟨t', hs'⟩ := exec_next_of_exec_next hs s'
  refine ⟨t', hs', ?_⟩
  obtain ⟨hbuf, -, hfault, hcause, hmem, hport, hhost⟩ := hagree
  have hwrites := commandWrites_eq_of_buf_eq i hbuf
  rw [exec_next hs, exec_next hs']
  simp [State.Agree, hwrites, hbuf, hfault, hcause, hmem, hport, hhost]

/-- Settles O2: of the commands only SETBASE and SETGEOM have a descriptor after them that may differ. -/
theorem onlyConfigurationChangesTheDescriptor : Obligations.OnlyConfigurationChangesTheDescriptor := by
  intro s t hs hne
  obtain hm | ⟨-, hm⟩ := step_cases hs
  · exact Or.inl ((hostMove_buf hm).resolve_right hne)
  · have hrun := engineMove_buf hm
    simp only [State.spendWait_buf, State.spendWait_fault, State.spendWait_busy, State.spendWait_latch] at hrun
    obtain ⟨hf, hb, i, hd, ht⟩ := hrun.resolve_left hne
    refine Or.inr ⟨hb, hf, ?_⟩
    cases i with
    | setbase base => exact Or.inl ⟨base, hd, ht⟩
    | setgeom width height stride depth => exact Or.inr ⟨width, height, stride, depth, hd, ht⟩
    | clear | plot | line | ellipse | fellipse => exact absurd ht hne

/-- Settles O17: no host move raises `BUSY`, and the one engine move that does is the acceptance. -/
theorem busyRisesOnlyByAcceptance : Obligations.BusyRisesOnlyByAcceptance := by
  intro s t hstep hs ht
  obtain hm | ⟨-, hm⟩ := step_cases hstep
  · simp [hostMove_busy hm hs] at ht
  · obtain ⟨hf, w, hp, rfl⟩ := engineMove_busy_rises hm (by simpa using hs) ht
    exact ⟨by simpa using hf, w, by simpa using hp, rfl, rfl⟩

/-- Settles O3: each field is read bit by bit. -/
theorem statusWordLayout : Obligations.StatusWordLayout := by
  intro s
  have hbits := statusWord_getLsbD s.busy s.fault s.cause
  refine ⟨hbits 0, hbits 1, ?_, ?_, ?_⟩
  · ext i hi
    rw [BitVec.getElem_extractLsb', State.status, hbits, if_neg (by omega), if_neg (by omega), if_pos (by omega),
      BitVec.getElem_zero]
  · ext i hi
    rw [BitVec.getElem_extractLsb', State.status, hbits, if_neg (by omega), if_neg (by omega), if_neg (by omega),
      Nat.add_sub_cancel_left, BitVec.getLsbD_eq_getElem hi]
  · ext i hi
    rw [BitVec.getElem_extractLsb', State.status, hbits, if_neg (by omega), if_neg (by omega), if_neg (by omega),
      BitVec.getLsbD_of_ge _ _ (by omega), BitVec.getElem_zero]

/-- Settles O4: the reset descriptor has no columns and no rows, so every plot event is dropped and CLEAR has no row. -/
theorem resetLeavesTheBlockHarmless : Obligations.ResetLeavesTheBlockHarmless := by
  refine ⟨rfl, rfl, rfl, rfl, rfl, fun i s hs => ?_⟩
  exact commandWrites_of_empty_buffer i (by rw [hs]; rfl) (by rw [hs]; rfl)

/-- Settles O60: no memory is written yet and every status field is 0 (10_state.md R19). -/
theorem invariantHoldsAtReset : Obligations.InvariantHoldsAtReset :=
  ⟨State.reset_mem_wf, by simp [State.reset], fun _ => rfl, by simp [State.reset]⟩

end Sys2Proof.Machine

/-! PROOFS of the statements about 20_memory.md: first what write events leave at one address, where the bytes of an
accepted pixel and of CLEAR lie, what the write events of a command are and when the host's store waits, then the
settled statements. -/

namespace Sys2Proof.Machine

/-! ## What write events leave at one address (20_memory.md R21, R27) -/

/-- Whatever byte the write event writes at the address `a`, it is `v`. An event that does not cover `a` meets this. -/
def WriteEvent.WritesOnly (e : WriteEvent) (a : Nat) (v : Byte) : Prop :=
  ∀ b, b < e.n → a = (e.addr.toNat + b) % 2 ^ 32 → byteOf byteOrder e.n e.v b = v

theorem WriteEvent.read_bytesInto_covered (e : WriteEvent) (k : Nat) (m : Memory) {a : Nat} {v : Byte}
    (hv : ∀ b, b < k → a = (e.addr.toNat + b) % 2 ^ 32 → byteOf byteOrder e.n e.v b = v)
    (hc : ∃ b, b < k ∧ a = (e.addr.toNat + b) % 2 ^ 32) : Memory.read (e.bytesInto k m) a = some v := by
  induction k with
  | zero => obtain ⟨b, hb, -⟩ := hc; omega
  | succ k ih =>
    rw [WriteEvent.bytesInto]
    by_cases ha : a = (e.addr.toNat + k) % 2 ^ 32
    · rw [hv k k.lt_succ_self ha, ha, Memory.read_write_same]
    · rw [Memory.read_write_other _ _ ha]
      obtain ⟨b, hb, hab⟩ := hc
      have hne : b ≠ k := by rintro rfl; exact ha hab
      exact ih (fun b' hb' => hv b' (by omega)) ⟨b, by omega, hab⟩

theorem WriteEvent.read_perform_covered (e : WriteEvent) (m : Memory) {a : Nat} {v : Byte} (hv : e.WritesOnly a v)
    (hc : e.covers a) : Memory.read (e.perform m) a = some v :=
  e.read_bytesInto_covered e.n m hv hc

/-- Where all write events that cover an address agree on its byte, that byte is what they leave there. -/
theorem read_performAll_touched (es : List WriteEvent) (m : Memory) {a : Nat} {v : Byte}
    (hv : ∀ e ∈ es, e.WritesOnly a v) (ht : Touched es a) : Memory.read (performAll es m) a = some v := by
  induction es generalizing m with
  | nil => obtain ⟨e, he, -⟩ := ht; cases he
  | cons e es ih =>
    rw [performAll_cons]
    by_cases hrest : Touched es a
    · exact ih _ (fun e' he' => hv e' (List.mem_cons_of_mem _ he')) hrest
    · rw [read_performAll_other es _ fun e' he' hc' => hrest ⟨e', he', hc'⟩]
      obtain ⟨e', he', hc⟩ := ht
      obtain rfl | he' := List.mem_cons.mp he'
      · exact e'.read_perform_covered m (hv e' List.mem_cons_self) hc
      · exact absurd ⟨e', he', hc⟩ hrest

theorem Touched.congr_perm {es fs : List WriteEvent} (h : es.Perm fs) (a : Nat) : Touched es a ↔ Touched fs a := by
  simp only [Touched, h.mem_iff]

/-- Events that agree on the byte at an address leave the same there in every order. -/
theorem read_performAll_perm {es fs : List WriteEvent} (h : es.Perm fs) (m : Memory) {a : Nat} {v : Byte}
    (hv : ∀ e ∈ fs, e.WritesOnly a v) : Memory.read (performAll es m) a = Memory.read (performAll fs m) a := by
  have hv' : ∀ e ∈ es, e.WritesOnly a v := fun e he => hv e (h.mem_iff.mp he)
  by_cases ht : Touched fs a
  · rw [read_performAll_touched fs m hv ht, read_performAll_touched es m hv' ((Touched.congr_perm h a).mpr ht)]
  · have ht' := mt (Touched.congr_perm h a).mp ht
    rw [read_performAll_other fs m fun e he hc => ht ⟨e, he, hc⟩,
      read_performAll_other es m fun e he hc => ht' ⟨e, he, hc⟩]

/-- Byte `b` of a value in the block's byte order (20_memory.md R21). -/
theorem byteOf_byteOrder (n : Nat) (v : BitVec 32) (b : Nat) :
    byteOf byteOrder n v b = BitVec.ofNat 8 (v.toNat >>> (8 * b)) := rfl

/-- The bytes of an event of at most 4 bytes lie at different addresses, across the wrap too. -/
theorem WriteEvent.writesOnly_self (e : WriteEvent) {b : Nat} (hn : e.n ≤ 4) (hb : b < e.n) :
    e.WritesOnly ((e.addr.toNat + b) % 2 ^ 32) (byteOf byteOrder e.n e.v b) := by
  intro b' hb' ha
  obtain rfl : b' = b := by omega
  rfl

/-! ## Where the bytes of the buffer region lie (20_memory.md R22, R26; 40_config_clear.md R43) -/

/-- `PixAddr`, exact and then mod 2^32. -/
theorem Descriptor.pixAddr_toNat (d : Descriptor) (px py : Nat) :
    (d.pixAddr px py).toNat = (d.base.toNat + py * d.stride.toNat + px * bytesPerPixel d.depth) % 2 ^ 32 :=
  BitVec.toNat_ofNat _ 32

/-- Byte `k` of row `r` lies in the region. -/
theorem Descriptor.inBuffer_row {d : Descriptor} {r k : Nat} (hr : r < d.height.toNat) (hk : k < d.stride.toNat) :
    d.InBuffer (d.base.toNat + r * d.stride.toNat + k) := by
  have hrows : (r + 1) * d.stride.toNat ≤ d.height.toNat * d.stride.toNat := Nat.mul_le_mul_right _ hr
  rw [Nat.add_mul, Nat.one_mul, Nat.mul_comm d.height.toNat] at hrows
  exact ⟨by omega, by omega⟩

/-- Under the duties no address of the region wraps. -/
theorem Descriptor.InBuffer.mod_eq {d : Descriptor} {a : Nat} (ha : d.InBuffer a) (hd : d.Duties) : a % 2 ^ 32 = a :=
  Nat.mod_eq_of_lt (ha.2.trans_le hd.2)

/-- Under the duties the bytes of a pixel lie within its row. -/
theorem Descriptor.pixel_byte_lt_stride {d : Descriptor} {px b : Nat} (hd : d.Duties) (hx : px < d.width.toNat)
    (hb : b < bytesPerPixel d.depth) : px * bytesPerPixel d.depth + b < d.stride.toNat := by
  have hcols : (px + 1) * bytesPerPixel d.depth ≤ d.width.toNat * bytesPerPixel d.depth := Nat.mul_le_mul_right _ hx
  rw [Nat.add_mul, Nat.one_mul] at hcols
  have hrow := hd.1
  omega

/-- Under the duties a byte of a pixel of the buffer has its address without a wrap. -/
theorem Descriptor.pixel_byte_addr {d : Descriptor} {px py b : Nat} (hd : d.Duties) (hx : px < d.width.toNat)
    (hy : py < d.height.toNat) (hb : b < bytesPerPixel d.depth) :
    ((d.pixAddr px py).toNat + b) % 2 ^ 32 =
      d.base.toNat + py * d.stride.toNat + (px * bytesPerPixel d.depth + b) := by
  rw [Descriptor.pixAddr_toNat, Nat.mod_add_mod, Nat.add_assoc]
  exact (Descriptor.inBuffer_row hy (Descriptor.pixel_byte_lt_stride hd hx hb)).mod_eq hd

/-- Which byte of a pixel lies at an address of the region: the columns of a row start at its first byte. -/
def Descriptor.byteIndex (d : Descriptor) (a : Nat) : Nat :=
  (a - d.base.toNat) % d.stride.toNat % bytesPerPixel d.depth

theorem Descriptor.byteIndex_pixel {d : Descriptor} {px py b : Nat} (hd : d.Duties) (hx : px < d.width.toNat)
    (hb : b < bytesPerPixel d.depth) :
    d.byteIndex (d.base.toNat + py * d.stride.toNat + (px * bytesPerPixel d.depth + b)) = b := by
  have hrow := Descriptor.pixel_byte_lt_stride hd hx hb
  rw [Descriptor.byteIndex, Nat.add_assoc, Nat.add_sub_cancel_left, Nat.mul_add_mod_self_right, Nat.mod_eq_of_lt hrow,
    Nat.mul_add_mod_self_right, Nat.mod_eq_of_lt hb]

/-! ## The write events of a command (20_memory.md R24, R27) -/

/-- A plot event writes pixels of the buffer only (41_pack_plot.md R53, R54). -/
theorem Descriptor.exists_pixel_of_mem_drawWrites {d : Descriptor} {c : BitVec 16} {ps : List Point} {e : WriteEvent}
    (he : e ∈ d.drawWrites c ps) :
    ∃ px py, px < d.width.toNat ∧ py < d.height.toNat ∧ e = d.pixelWrite c px py := by
  obtain ⟨p, -, hp⟩ := Descriptor.mem_drawWrites.mp he
  obtain ⟨hin, i, j, hi, hj, rfl⟩ := Descriptor.mem_plotWrites.mp hp
  obtain ⟨hx0, hy0, hx, hy⟩ := (d.dropped_eq_false p).mp hin
  rw [Descriptor.xlim] at hx
  rw [Descriptor.ylim] at hy
  exact ⟨_, _, by omega, by omega, rfl⟩

theorem Descriptor.drawWrites_singleton (d : Descriptor) (c : BitVec 16) (p : Point) :
    d.drawWrites c [p] = d.plotWrites c p := by simp

/-- A command writes nothing, or what CLEAR writes, or a drawing of one color. -/
theorem commandWrites_cases (i : Instr) (s : State) :
    commandWrites i s = [] ∨ commandWrites i s = s.buf.clearWrites ∨
      ∃ c ps, commandWrites i s = s.buf.drawWrites c ps := by
  cases i with
  | setbase | setgeom => exact Or.inl rfl
  | clear => exact Or.inr (Or.inl rfl)
  | plot x y c => exact Or.inr (Or.inr ⟨c, [⟨x, y⟩], (s.buf.drawWrites_singleton c _).symm⟩)
  | line | ellipse | fellipse => exact Or.inr (Or.inr ⟨_, _, rfl⟩)

theorem commandWrites_of_not_reachesMemory {i : Instr} (s : State) (h : i.reachesMemory = false) :
    commandWrites i s = [] := by
  cases i with
  | setbase | setgeom => rfl
  | clear | plot | line | ellipse | fellipse => cases h

theorem Instr.descriptorAfter_of_reachesMemory {i : Instr} (d : Descriptor) (h : i.reachesMemory = true) :
    i.descriptorAfter d = d := by
  cases i with
  | setbase | setgeom => cases h
  | clear | plot | line | ellipse | fellipse => rfl

/-- Byte count and value of a drawing's write events. -/
theorem Descriptor.size_value_of_mem_drawWrites {d : Descriptor} {c : BitVec 16} {ps : List Point} {e : WriteEvent}
    (he : e ∈ d.drawWrites c ps) : e.n = bytesPerPixel d.depth ∧ e.v = pack d.depth c := by
  obtain ⟨px, py, -, -, rfl⟩ := Descriptor.exists_pixel_of_mem_drawWrites he
  exact ⟨rfl, rfl⟩

theorem Descriptor.size_value_of_mem_clearWrites {d : Descriptor} {e : WriteEvent} (he : e ∈ d.clearWrites) :
    e.n = 1 ∧ e.v = 0 := by
  obtain ⟨r, -, b, -, rfl⟩ := Descriptor.mem_clearWrites.mp he
  exact ⟨rfl, rfl⟩

theorem Descriptor.clearWrites_inBuffer {d : Descriptor} {e : WriteEvent} {a : Nat} (hd : d.Duties)
    (he : e ∈ d.clearWrites) (ha : e.covers a) : d.InBuffer a := by
  obtain ⟨r, hr, k, hk, rfl⟩ := Descriptor.mem_clearWrites.mp he
  obtain ⟨b, hb, rfl⟩ := ha
  obtain rfl : b = 0 := Nat.lt_one_iff.mp hb
  have hin := Descriptor.inBuffer_row hr hk
  rwa [BitVec.toNat_ofNat, Nat.add_zero, Nat.mod_mod, hin.mod_eq hd]

theorem Descriptor.drawWrites_inBuffer {d : Descriptor} {c : BitVec 16} {ps : List Point} {e : WriteEvent} {a : Nat}
    (hd : d.Duties) (he : e ∈ d.drawWrites c ps) (ha : e.covers a) : d.InBuffer a := by
  obtain ⟨px, py, hx, hy, rfl⟩ := Descriptor.exists_pixel_of_mem_drawWrites he
  obtain ⟨b, hb, rfl⟩ := ha
  rw [Descriptor.pixelWrite_addr, Descriptor.pixel_byte_addr hd hx hy hb]
  exact Descriptor.inBuffer_row hy (Descriptor.pixel_byte_lt_stride hd hx hb)

theorem commandWrites_inBuffer {i : Instr} {s : State} {e : WriteEvent} {a : Nat} (hd : s.buf.Duties)
    (he : e ∈ commandWrites i s) (ha : e.covers a) : s.buf.InBuffer a := by
  obtain hw | hw | ⟨c, ps, hw⟩ := commandWrites_cases i s
  · rw [hw] at he; cases he
  · exact Descriptor.clearWrites_inBuffer hd (hw ▸ he) ha
  · exact Descriptor.drawWrites_inBuffer hd (hw ▸ he) ha

theorem Descriptor.clearWrites_writesOnly {d : Descriptor} {e : WriteEvent} (he : e ∈ d.clearWrites) (a : Nat) :
    e.WritesOnly a 0 := by
  intro b _ _
  rw [(Descriptor.size_value_of_mem_clearWrites he).2, byteOf_byteOrder]
  simp

/-- Under the duties all pixels that cover an address cover it with the same byte of the packed color. -/
theorem Descriptor.drawWrites_writesOnly {d : Descriptor} {c : BitVec 16} {ps : List Point} {e : WriteEvent}
    (hd : d.Duties) (he : e ∈ d.drawWrites c ps) (a : Nat) :
    e.WritesOnly a (byteOf byteOrder (bytesPerPixel d.depth) (pack d.depth c) (d.byteIndex a)) := by
  obtain ⟨px, py, hx, hy, rfl⟩ := Descriptor.exists_pixel_of_mem_drawWrites he
  rintro b hb rfl
  rw [Descriptor.pixelWrite_addr, Descriptor.pixel_byte_addr hd hx hy hb, Descriptor.byteIndex_pixel hd hx hb]
  rfl

/-- Under the duties the write events of a command agree on the byte at every address. -/
theorem commandWrites_writesOnly (i : Instr) {s : State} (hd : s.buf.Duties) (a : Nat) :
    ∃ v, ∀ e ∈ commandWrites i s, e.WritesOnly a v := by
  obtain hw | hw | ⟨c, ps, hw⟩ := commandWrites_cases i s
  · exact ⟨0, by simp [hw]⟩
  · exact ⟨0, fun e he => Descriptor.clearWrites_writesOnly (hw ▸ he) a⟩
  · exact ⟨_, fun e he => Descriptor.drawWrites_writesOnly hd (hw ▸ he) a⟩

/-! ## Memory after a command and after a move (20_memory.md R20, R28) -/

theorem exec_mem {i : Instr} {s t : State} (h : exec i s = .next t) : t.mem = performAll (commandWrites i s) s.mem := by
  rw [exec_next h]; rfl

theorem exec_retired {i : Instr} {s t : State} (h : exec i s = .next t) : s.Retired t := by
  rw [exec_next h]; exact ⟨rfl, rfl, rfl, rfl, rfl⟩

/-- A command that completes leaves every byte that none of its write events covers. -/
theorem exec_read_untouched {i : Instr} {s t : State} (h : exec i s = .next t) {a : Nat}
    (ha : ¬Touched (commandWrites i s) a) : Memory.read t.mem a = Memory.read s.mem a := by
  rw [exec_mem h]
  exact read_performAll_other _ _ fun e he hc => ha ⟨e, he, hc⟩

/-- The latched word has write events only if it is a command that reaches memory. -/
theorem State.latchedWrites_cases (s : State) :
    s.latchedWrites = [] ∨ ∃ i, decode s.latch.toWord = .ok i ∧ i.reachesMemory = true := by
  cases hdec : decode s.latch.toWord with
  | error f => exact Or.inl (by rw [State.latchedWrites, hdec])
  | ok i =>
    cases hi : i.reachesMemory with
    | true => exact Or.inr ⟨i, rfl, hi⟩
    | false => exact Or.inl (by rw [State.latchedWrites, hdec]; exact commandWrites_of_not_reachesMemory s hi)

/-- The host changes memory by its store, or by a reset that leaves part of an executing command's writes. -/
theorem hostMove_mem {s t : State} (h : s.hostMove = some t) :
    t.mem = s.mem ∨ (∃ a v rest, s.host = .store a v :: rest ∧ t.mem = Memory.write s.mem a.toNat v) ∨
      s.busy = true ∧ ∃ i, decode s.latch.toWord = .ok i ∧ i.reachesMemory = true := by
  obtain ⟨rest, -, rfl⟩ | ⟨w, rest, -, -, rfl⟩ | ⟨a, v, rest, hh, -, rfl⟩ := hostMove_cases h
  · rw [State.takeReset_mem]
    cases hb : s.busy with
    | false => exact Or.inl (by simp)
    | true =>
      obtain hw | hw := s.latchedWrites_cases
      · exact Or.inl (by simp [hw])
      · exact Or.inr (Or.inr ⟨rfl, hw⟩)
  · exact Or.inl rfl
  · exact Or.inr (Or.inl ⟨a, v, rest, hh, rfl⟩)

/-- The engine changes memory only by executing a command that reaches it. -/
theorem engineMove_mem {s t : State} (h : s.engineMove = .next t) :
    t.mem = s.mem ∨ s.busy = true ∧ ∃ i, decode s.latch.toWord = .ok i ∧ i.reachesMemory = true := by
  obtain ⟨-, rfl⟩ | ⟨-, hb, i, hdec, he⟩ | ⟨-, -, f, -, rfl⟩ | ⟨-, -, w, -, rfl⟩ | ⟨-, -, -, rfl⟩ :=
    engineMove_cases h
  · exact Or.inl rfl
  · cases hi : i.reachesMemory with
    | true => exact Or.inr ⟨hb, i, hdec, hi⟩
    | false => exact Or.inl (by rw [exec_mem he, commandWrites_of_not_reachesMemory s hi]; rfl)
  · exact Or.inl rfl
  · exact Or.inl rfl
  · exact Or.inl rfl

theorem State.hostMove_store {s : State} {a : Addr} {v : Byte} {rest : List HostEvent}
    (h : s.host = .store a v :: rest) :
    s.hostMove = if s.busy && s.buf.inRegion a then none
      else some { s with mem := Memory.write s.mem a.toNat v, host := rest } := by
  rw [State.hostMove, h]

/-- Only a `wait` is spent on the engine's move. -/
theorem State.spendWait_store {s : State} {a : Addr} {v : Byte} {rest : List HostEvent}
    (h : s.host = .store a v :: rest) : s.spendWait = s := by
  rw [State.spendWait, h]

theorem step_of_hostMove_some {s t : State} (h : s.hostMove = some t) : step s = .next t := by
  rw [step, State.move, h]

theorem step_of_hostMove_none {s : State} (h : s.hostMove = none) : step s = s.spendWait.engineMove := by
  rw [step, State.move, h]

/-! ## The statements -/

/-- Settles O5: by the host's move and the engine's. -/
theorem memoryChangesOnlyByDrawingOrTheHost : Obligations.MemoryChangesOnlyByDrawingOrTheHost := by
  intro s t hs hne
  obtain hm | ⟨-, hm⟩ := step_cases hs
  · exact (hostMove_mem hm).resolve_left hne
  · have hrun := engineMove_mem hm
    simp only [State.spendWait_mem, State.spendWait_busy, State.spendWait_latch] at hrun
    exact Or.inr (hrun.resolve_left hne)

/-- Settles O6: the bytes of one event do not overlap, so each is what the event leaves at its address. -/
theorem memWriteStoresLittleEndianBytes : Obligations.MemWriteStoresLittleEndianBytes := by
  intro e m hn
  refine ⟨fun b hb => ?_, fun a ha => e.read_bytesInto_other e.n m ha⟩
  rw [e.read_perform_covered m (e.writesOnly_self hn hb) ⟨b, hb, rfl⟩, byteOf_byteOrder]

/-- Settles O8: CLEAR's events are zero bytes, and those of the four other commands are a drawing's. -/
theorem writeEventsCarryOneValue : Obligations.WriteEventsCarryOneValue := by
  refine fun s e => ⟨Descriptor.size_value_of_mem_clearWrites, fun c => ⟨fun x y he => ?_, ?_, ?_, ?_⟩⟩
  · exact Descriptor.size_value_of_mem_drawWrites (ps := [⟨x, y⟩]) (by rwa [Descriptor.drawWrites_singleton])
  · exact fun _ _ _ _ => Descriptor.size_value_of_mem_drawWrites
  · exact fun _ _ _ _ => Descriptor.size_value_of_mem_drawWrites
  · exact fun _ _ _ _ => Descriptor.size_value_of_mem_drawWrites

/-- Settles O9: under the duties a command's write events agree on every byte, so their order leaves no trace. -/
theorem writeOrderWithinACommandDoesNotMatter : Obligations.WriteOrderWithinACommandDoesNotMatter := by
  intro i s es m a hd hperm
  obtain ⟨v, hv⟩ := commandWrites_writesOnly i hd a
  exact read_performAll_perm hperm m hv

/-- Settles O29: every byte a write event covers lies in the region, so a byte outside it is untouched. -/
theorem commandsStayInsideTheBuffer : Obligations.CommandsStayInsideTheBuffer := by
  intro i s t hd hs
  refine ⟨fun e he a => commandWrites_inBuffer hd he, fun a ha => exec_read_untouched hs ?_⟩
  rintro ⟨e, he, hc⟩
  exact ha (commandWrites_inBuffer hd he hc)

/-- Settles O57: from what a completed command has done. -/
theorem drawingCommandsFrame : Obligations.DrawingCommandsFrame := by
  intro i s t hi hs
  refine ⟨?_, exec_retired hs, fun a => exec_read_untouched hs⟩
  rw [exec_buf hs, Instr.descriptorAfter_of_reachesMemory _ hi]

/-- Settles O7: `PixAddr` with the bytes per pixel of each depth. -/
theorem pixelAddressIsExactThenWraps : Obligations.PixelAddressIsExactThenWraps := by
  intro d px py
  constructor
  · intro hd
    rw [Descriptor.pixAddr_toNat, hd, bytesPerPixel]
  · intro hd
    rw [Descriptor.pixAddr_toNat, hd, bytesPerPixel]

/-- Settles O10: the host's move is none exactly while `BUSY = 1` and the address lies in the region. -/
theorem hostWritesTheBufferOnlyWhenIdle : Obligations.HostWritesTheBufferOnlyWhenIdle := by
  intro s a v rest hh
  have hmove := State.hostMove_store hh
  constructor
  · rintro ⟨hb, hin⟩
    rw [step_of_hostMove_none (by simp [hmove, hb, hin]), State.spendWait_store hh]
  · intro hfree
    have hgo : (s.busy && s.buf.inRegion a) = false := Bool.and_eq_false_iff.mpr hfree
    exact step_of_hostMove_some (by simp [hmove, hgo])

end Sys2Proof.Machine

/-! PROOFS of the statements about 30_encoding.md and of the completion of every command: first what decode answers and
how commands, fields and words go into each other, what each move leaves at the port, and that the ellipse loop ends,
then the settled statements. -/

namespace Sys2Proof

/-! ## Decode and encode (30_encoding.md R30 to R34) -/

theorem opcodeOf_eq_some_iff {b : BitVec 8} {op : Opcode} : opcodeOf b = some op ↔ b = op.code := by
  constructor
  · exact fun h => (code_of_opcodeOf h).symm
  · rintro rfl
    exact opcodeOf_code op

/-- The words that are commands: the opcode of a row, and every must-be-zero bit of that row zero. -/
theorem decode_eq_ok_iff {w : CommandWord} {i : Instr} :
    decode w = .ok i ↔ ∃ op : Opcode, (CommandFields.ofWord w).opc = op.code ∧ (CommandFields.ofWord w).rsv = 0 ∧
      CommandFields.operandsClean op (CommandFields.ofWord w) ∧ op.instr (CommandFields.ofWord w) = i := by
  constructor
  · intro h
    unfold decode at h
    split at h
    · cases h
    · next op hop =>
      split_ifs at h with hm
      obtain ⟨hopc, hrsv, hclean⟩ := (op.matches_iff w).mp hm
      exact ⟨op, hopc, hrsv, hclean, Except.ok.inj h⟩
  · rintro ⟨op, hopc, hrsv, hclean, rfl⟩
    have hm := (op.matches_iff w).mpr ⟨hopc, hrsv, hclean⟩
    simp only [decode, opcodeOf_eq_some_iff.mpr hopc, if_pos hm]

/-- The word of every command matches its row. -/
theorem encode_matches_row (i : Instr) : encode i &&& i.opcode.maskWord = i.opcode.matchWord :=
  match i with
  | .setbase base => Laws.EncodesItsRow.setbase base
  | .setgeom width height stride depth => Laws.EncodesItsRow.setgeom width height stride depth
  | .clear => Laws.EncodesItsRow.clear
  | .plot x y c => Laws.EncodesItsRow.plot x y c
  | .line x0 y0 x1 y1 c => Laws.EncodesItsRow.line x0 y0 x1 y1 c
  | .ellipse cx cy rx ry c => Laws.EncodesItsRow.ellipse cx cy rx ry c
  | .fellipse cx cy rx ry c => Laws.EncodesItsRow.fellipse cx cy rx ry c

theorem coordInRange_iff {v : Int} : coordInRange v = true ↔ -32768 ≤ v ∧ v ≤ 32767 := by
  simp [coordInRange]

theorem radiusInRange_iff {r : Nat} : radiusInRange r = true ↔ r ≤ 65535 := by
  simp [radiusInRange]

theorem coordInRange_toInt (b : BitVec 16) : coordInRange b.toInt = true := by
  have hlo := b.le_toInt
  have hhi := b.toInt_lt
  exact coordInRange_iff.mpr ⟨by omega, by omega⟩

theorem radiusInRange_toNat (b : BitVec 16) : radiusInRange b.toNat = true :=
  radiusInRange_iff.mpr (Nat.le_of_lt_succ b.isLt)

/-- A coordinate in range is what its field reads back by sign extension. -/
theorem toInt_ofInt_of_coordInRange {v : Int} (h : coordInRange v = true) : (BitVec.ofInt 16 v).toInt = v := by
  obtain ⟨hlo, hhi⟩ := coordInRange_iff.mp h
  exact BitVec.toInt_ofInt_eq_self (by decide) hlo (Int.lt_add_one_of_le hhi)

/-- A radius in range is what its field reads back by zero extension. -/
theorem toNat_ofNat_of_radiusInRange {r : Nat} (h : radiusInRange r = true) : (BitVec.ofNat 16 r).toNat = r :=
  (BitVec.toNat_ofNat r 16).trans (Nat.mod_eq_of_lt (Nat.lt_succ_of_le (radiusInRange_iff.mp h)))

/-- A 32-bit operand is the two fields that carry it. -/
theorem append_halves (v : BitVec 32) : v.extractLsb' 16 16 ++ v.extractLsb' 0 16 = v :=
  BitVec.extractLsb'_append_extractLsb' (w := 16) (len := 16)

/-- The depth bit of a field that carries a depth. -/
theorem depthOfBit_field (depth : Depth) : depthOfBit (depth.field.getLsbD 0) = depth := by
  cases depth <;> rfl

/-- A field that is a clean depth operand is what its depth bit is encoded as. -/
theorem field_depthOfBit {c : BitVec 16} (h : c = 0 ∨ c = 1) : (depthOfBit (c.getLsbD 0)).field = c := by
  obtain rfl | rfl := h <;> rfl

/-- A well-formed command is read back from its fields. -/
theorem Opcode.instr_fields {i : Instr} (h : i.wellFormed = true) : i.opcode.instr i.fields = i := by
  cases i with
  | setbase base => simp only [Instr.opcode, Instr.fields, Opcode.instr, append_halves]
  | setgeom width height stride depth =>
    simp only [Instr.opcode, Instr.fields, Opcode.instr, append_halves, depthOfBit_field]
  | clear => rfl
  | plot x y c =>
    simp only [Instr.wellFormed, Bool.and_eq_true] at h
    simp only [Instr.opcode, Instr.fields, Opcode.instr, toInt_ofInt_of_coordInRange, h]
  | line x0 y0 x1 y1 c =>
    simp only [Instr.wellFormed, Bool.and_eq_true] at h
    simp only [Instr.opcode, Instr.fields, Opcode.instr, toInt_ofInt_of_coordInRange, h]
  | ellipse cx cy rx ry c | fellipse cx cy rx ry c =>
    simp only [Instr.wellFormed, Bool.and_eq_true] at h
    simp only [Instr.opcode, Instr.fields, Opcode.instr, toInt_ofInt_of_coordInRange, toNat_ofNat_of_radiusInRange, h]

/-- The clean fields of a row are those of the command they hold. -/
theorem Opcode.fields_instr {op : Opcode} {f : CommandFields} (hopc : f.opc = op.code) (hrsv : f.rsv = 0)
    (hclean : CommandFields.operandsClean op f) : (op.instr f).fields = f := by
  obtain ⟨opc, rsv, c, a3, a2, a1, a0⟩ := f
  obtain rfl : opc = op.code := hopc
  obtain rfl : rsv = 0 := hrsv
  cases op with
  | setbase =>
    obtain ⟨rfl, rfl, rfl⟩ := hclean
    simp only [Opcode.instr, Instr.fields, Instr.opcode, BitVec.extractLsb'_append_eq_left,
      BitVec.extractLsb'_append_eq_right]
  | setgeom =>
    simp only [Opcode.instr, Instr.fields, Instr.opcode, field_depthOfBit hclean, BitVec.extractLsb'_append_eq_left,
      BitVec.extractLsb'_append_eq_right]
  | clear =>
    obtain ⟨rfl, rfl, rfl, rfl, rfl⟩ := hclean
    rfl
  | plot =>
    obtain ⟨rfl, rfl⟩ := hclean
    simp [Opcode.instr, Instr.fields, Instr.opcode]
  | line | ellipse | fellipse => simp [Opcode.instr, Instr.fields, Instr.opcode]

/-- Fields hold operands in range only. -/
theorem Opcode.instr_wellFormed (op : Opcode) (f : CommandFields) : (op.instr f).wellFormed = true := by
  cases op with
  | setbase | setgeom | clear => rfl
  | plot | line => simp [Opcode.instr, Instr.wellFormed, coordInRange_toInt]
  | ellipse | fellipse => simp [Opcode.instr, Instr.wellFormed, coordInRange_toInt, radiusInRange_toNat]

theorem decodeTableWord_eq_some_iff {nbits w : Nat} {i : Instr} :
    decodeTableWord nbits w = some i ↔ decode (tableWord nbits w) = .ok i := by
  unfold decodeTableWord
  cases decode (tableWord nbits w) with
  | ok j => simp
  | error f => simp

end Sys2Proof

namespace Sys2Proof.Machine

/-! ## The word at the port (30_encoding.md R37) -/

theorem hostMove_port_held {s t : State} {w : CommandWord} (h : s.hostMove = some t) (hp : s.port = some w) :
    t.port = some w := by
  obtain ⟨rest, -, rfl⟩ | ⟨v, rest, -, hfree, rfl⟩ | ⟨a, v, rest, -, -, rfl⟩ := hostMove_cases h
  · exact hp
  · simp [hp] at hfree
  · exact hp

/-- The engine takes the word at the port only by an acceptance, which an executing or a faulted block never makes. -/
theorem engineMove_port_held {s t : State} (h : s.engineMove = .next t) (hs : s.busy = true ∨ s.fault = true) :
    t.port = s.port := by
  obtain ⟨-, rfl⟩ | ⟨-, -, i, -, he⟩ | ⟨-, -, f, -, rfl⟩ | ⟨hf, hb, w, -, rfl⟩ | ⟨-, -, -, rfl⟩ := engineMove_cases h
  · rfl
  · obtain ⟨-, -, -, hport, -⟩ := exec_retired he
    exact hport
  · rfl
  · simp [hf, hb] at hs
  · rfl

/-! ## What one step is (30_encoding.md R34, R37) -/

theorem engineMove_of_decode_ok {s : State} {i : Instr} (hf : s.fault = false) (hb : s.busy = true)
    (hd : decode s.latch.toWord = .ok i) : s.engineMove = exec i s := by
  simp [State.engineMove, hf, hb, hd]

theorem engineMove_of_word_at_port {s : State} {w : CommandWord} (hf : s.fault = false) (hb : s.busy = false)
    (hp : s.port = some w) : s.engineMove = .next (s.accept w) := by
  simp [State.engineMove, hf, hb, hp]

theorem step_of_decode_ok {s : State} {i : Instr} (hf : s.fault = false) (hb : s.busy = true)
    (hm : s.hostMove = none) (hd : decode s.latch.toWord = .ok i) : step s = exec i s.spendWait := by
  rw [step_of_hostMove_none hm]
  exact engineMove_of_decode_ok (by simpa using hf) (by simpa using hb) (by simpa using hd)

theorem step_of_word_at_port {s : State} {w : CommandWord} (hf : s.fault = false) (hb : s.busy = false)
    (hm : s.hostMove = none) (hp : s.port = some w) : step s = .next (s.spendWait.accept w) := by
  rw [step_of_hostMove_none hm]
  exact engineMove_of_word_at_port (by simpa using hf) (by simpa using hb) (by simpa using hp)

theorem State.hostMove_present {s : State} {w : CommandWord} {rest : List HostEvent} (hh : s.host = .present w :: rest)
    (hp : s.port = none) : s.hostMove = some { s with port := some w, host := rest } := by
  simp [State.hostMove, hh, hp]

/-- A host with no coming action makes no move. -/
theorem State.hostMove_of_host_nil {s : State} (h : s.host = []) : s.hostMove = none := by
  rw [State.hostMove, h]

theorem State.spendWait_of_host_nil {s : State} (h : s.host = []) : s.spendWait = s := by
  rw [State.spendWait, h]

theorem core_run_succ {s t : State} (h : step s = .next t) (k : Nat) : core.run (k + 1) s = core.run k t := by
  have hs : core.step s = .next t := h
  simp only [Host.Core.run, hs]

/-! ## The ellipse loop ends (43_ellipse.md R78) -/

/-- What holds before every step of the loop: the two angle variables have crossed, or their sum has not fallen below
its first value. -/
structure EllipseRegs.BeforeStep (e : EllipseRegs) : Prop where
  m_pos : 1 ≤ e.m
  ix_nonneg : 0 ≤ e.ix
  iy_le : e.iy ≤ 64 * e.m
  crossed_or_sum : e.iy < e.ix ∨ 64 * e.m ≤ e.ix + e.iy

theorem EllipseRegs.beforeStep_setup (e : EllipseRegs) (cx cy : Int) {rx ry : Nat} (h : 1 ≤ max rx ry) :
    (e.setup cx cy rx ry).BeforeStep := by
  obtain ⟨hm, -, hix, hiy, -⟩ := e.setup_fields cx cy rx ry
  constructor
  · rwa [hm]
  · rw [hix]
  · rw [hiy, hm]
  · right; rw [hiy, hm, hix]; simp

theorem EllipseRegs.step_ix (e : EllipseRegs) : e.project.remember.update.ix = e.ix + e.iy / e.m := rfl

theorem EllipseRegs.step_iy (e : EllipseRegs) :
    e.project.remember.update.iy = e.iy - e.project.remember.update.ix / e.m := rfl

/-- A loop that goes on has not crossed: the projections are monotone. -/
theorem EllipseRegs.ix_lt_iy {e : EllipseRegs} (h : e.project.h < e.project.i) : e.ix < e.iy := by
  by_contra hc
  have hle : e.project.i ≤ e.project.h := Int.ediv_le_ediv (by decide) (by omega)
  omega

/-- Before the crossing the larger variable is at least half of the sum, so `ix` grows by 32 or more. -/
theorem EllipseRegs.BeforeStep.le_div {e : EllipseRegs} (h : e.BeforeStep) (hlt : e.ix < e.iy) :
    32 ≤ e.iy / e.m := by
  obtain ⟨hm, -, -, hsum⟩ := h
  exact Int.le_ediv_of_mul_le (by omega) (by omega)

/-- A step takes from `iy` no more than it adds to `ix`, unless it lets the two cross. -/
theorem EllipseRegs.BeforeStep.step {e : EllipseRegs} (h : e.BeforeStep) (hlt : e.ix < e.iy) :
    e.project.remember.update.BeforeStep := by
  have hgain := h.le_div hlt
  obtain ⟨hm, hix, hiy, hsum⟩ := h
  obtain ⟨-, -, -, -, hm', -⟩ := e.step_fixed
  have hx := e.step_ix
  have hy := e.step_iy
  have hloss : 0 ≤ e.project.remember.update.ix / e.m := Int.ediv_nonneg (by omega) (by omega)
  refine ⟨hm, by omega, by rw [hm']; omega, ?_⟩
  obtain hcross | hbelow := lt_or_ge e.iy e.project.remember.update.ix
  · left; omega
  · have hbalance : e.project.remember.update.ix / e.m ≤ e.iy / e.m := Int.ediv_le_ediv (by omega) hbelow
    right; rw [hm']; omega

/-- Each step that goes on adds 32 to `ix`, which does not exceed the first value of `iy` before the crossing. -/
theorem exists_ellipseLoop_of_beforeStep {b : Nat} {e : EllipseRegs} (h : e.BeforeStep)
    (hb : 64 * (e.m : Int) ≤ e.ix + 32 * b) : ∃ ps, ellipseLoop (b + 1) e = some ps := by
  induction b generalizing e with
  | zero =>
    refine ⟨[e.project], ?_⟩
    rw [ellipseLoop]
    refine if_neg fun hi => ?_
    have hlt := EllipseRegs.ix_lt_iy hi
    have hle := h.iy_le
    omega
  | succ b ih =>
    rw [ellipseLoop]
    by_cases hi : e.project.h < e.project.i
    · have hlt := EllipseRegs.ix_lt_iy hi
      have hgain := h.le_div hlt
      obtain ⟨-, -, -, -, hm', -⟩ := e.step_fixed
      obtain ⟨ps, hps⟩ := ih (h.step hlt) (by rw [hm', e.step_ix]; push_cast at hb; omega)
      exact ⟨e.project :: ps, by simp only [if_pos hi, hps, Option.map_some]⟩
    · exact ⟨[e.project], if_neg hi⟩

/-- The model's budget suffices for radii that are not both 0 (43_ellipse.md R78 (d); log 13). -/
theorem exists_ellipseLoop_budget (e : EllipseRegs) (cx cy : Int) {rx ry : Nat} (h : 1 ≤ max rx ry) :
    ∃ ps, ellipseLoop (ellipseBudget rx ry) (e.setup cx cy rx ry) = some ps := by
  obtain ⟨hm, -, hix, -⟩ := e.setup_fields cx cy rx ry
  refine exists_ellipseLoop_of_beforeStep (b := 2 * max rx ry + 1) (e.beforeStep_setup cx cy h) ?_
  rw [hm, hix]
  push_cast
  omega

theorem exists_ellipseSteps (e : EllipseRegs) (cx cy : Int) {rx ry : Nat} (h : 1 ≤ max rx ry) :
    ∃ steps, ellipseSteps e cx cy rx ry = some steps := by
  obtain ⟨ps, hps⟩ := exists_ellipseLoop_budget e cx cy h
  exact ⟨ps.filter EllipseRegs.qualifies, by rw [ellipseSteps, hps, Option.map_some]⟩

/-- Radii that are both 0 are a degenerate input (43_ellipse.md R72). -/
theorem max_pos_of_degeneratePoints_eq_none {r : LineRegs} {cx cy : Int} {rx ry : Nat}
    (h : degeneratePoints r cx cy rx ry = none) : 1 ≤ max rx ry := by
  by_contra hmax
  have hzero : rx = 0 ∧ ry = 0 := by omega
  rw [degeneratePoints, if_pos hzero] at h
  cases h

theorem ellipsePoints_ne_none (r : LineRegs) (e : EllipseRegs) (cx cy : Int) (rx ry : Nat) :
    ellipsePoints r e cx cy rx ry ≠ none := by
  unfold ellipsePoints
  split
  · simp
  · next hd =>
    obtain ⟨steps, hs⟩ := exists_ellipseSteps e cx cy (max_pos_of_degeneratePoints_eq_none hd)
    simp [hs]

theorem fellipsePoints_ne_none (r : LineRegs) (e : EllipseRegs) (cx cy : Int) (rx ry : Nat) :
    fellipsePoints r e cx cy rx ry ≠ none := by
  unfold fellipsePoints
  split
  · simp
  · next hd =>
    obtain ⟨steps, hs⟩ := exists_ellipseSteps e cx cy (max_pos_of_degeneratePoints_eq_none hd)
    simp [hs]

/-- No command stops: the guard of log 13 is never answered. -/
theorem exists_exec_next (i : Instr) (s : State) : ∃ t, exec i s = .next t := by
  refine (exec_outcome i s).resolve_right ?_
  rintro ⟨-, cx, cy, rx, ry, c, ⟨-, hp⟩ | ⟨-, hp⟩⟩
  · exact ellipsePoints_ne_none _ _ _ _ _ _ hp
  · exact fellipsePoints_ne_none _ _ _ _ _ _ hp

/-- An idle block with a host that does nothing runs the word at its port to its end in two steps. -/
theorem exists_run_of_word_at_port {s : State} {w : CommandWord} {i : Instr} (hf : s.fault = false)
    (hb : s.busy = false) (hp : s.port = some w) (hh : s.host = []) (hd : decode w = .ok i) :
    ∃ t, core.run 2 s = .next t ∧ exec i (s.accept w) = .next t := by
  have haccept : step s = .next (s.accept w) := by
    rw [step_of_word_at_port hf hb (State.hostMove_of_host_nil hh) hp, State.spendWait_of_host_nil hh]
  have hlatch : decode (s.accept w).latch.toWord = .ok i := by
    rw [State.accept_latch, CommandFields.toWord_ofWord, hd]
  have hexec : step (s.accept w) = exec i (s.accept w) := by
    rw [step_of_decode_ok (s := s.accept w) hf rfl (State.hostMove_of_host_nil hh) hlatch,
      State.spendWait_of_host_nil (s := s.accept w) hh]
  obtain ⟨t, ht⟩ := exists_exec_next i (s.accept w)
  refine ⟨t, ?_, ht⟩
  rw [core_run_succ haccept, core_run_succ (hexec.trans ht)]
  rfl

/-! ## The statements -/

/-- Settles O12: a command and its fields determine each other, and a word is its fields. -/
theorem decodeAndEncodeAgree : Obligations.DecodeAndEncodeAgree := by
  constructor
  · intro i hwf
    obtain ⟨hopc, hrsv, hclean⟩ := (Opcode.matches_iff _ _).mp (encode_matches_row i)
    exact decode_eq_ok_iff.mpr ⟨i.opcode, hopc, hrsv, hclean, by rw [ofWord_encode, Opcode.instr_fields hwf]⟩
  · intro w i h
    obtain ⟨op, hopc, hrsv, hclean, rfl⟩ := decode_eq_ok_iff.mp h
    refine ⟨?_, op.instr_wellFormed _⟩
    rw [encode, Opcode.fields_instr hopc hrsv hclean, CommandFields.toWord_ofWord]

/-- Settles O56: a command always completes, and `exec_next` says what it has done. -/
theorem everyCommandCompletes : Obligations.EveryCommandCompletes := by
  intro i s
  obtain ⟨t, ht⟩ := exists_exec_next i s
  exact ⟨t, ht, exec_mem ht, exec_buf ht, exec_retired ht⟩

/-- Settles O16: no host move takes a word from the port, and the engine takes one only when idle and unfaulted. -/
theorem presentedWordIsHeld : Obligations.PresentedWordIsHeld := by
  intro s t w hs hp hstep
  obtain hm | ⟨-, hm⟩ := step_cases hstep
  · exact hostMove_port_held hm hp
  · rw [engineMove_port_held hm (by simpa using hs), State.spendWait_port, hp]

/-- Settles O19: the host's move, the acceptance, and the command run to its end. -/
theorem presentedCommandRetires : Obligations.PresentedCommandRetires := by
  intro s w i hb hf hp hh hd
  have hpresent : step s = .next { s with port := some w, host := [] } :=
    step_of_hostMove_some (State.hostMove_present hh hp)
  obtain ⟨t, hrun, ht⟩ := exists_run_of_word_at_port (s := { s with port := some w, host := [] }) hf hb rfl rfl hd
  obtain ⟨hbusy, hfault, hcause, hport, hhost⟩ := exec_retired ht
  refine ⟨t, (core_run_succ hpresent 2).trans hrun, hbusy, hfault.trans hf, hcause, hport, hhost, ?_, ?_⟩
  · rw [exec_buf ht, State.accept_buf]
  · rw [exec_mem ht, State.accept_mem, commandWrites_eq_of_buf_eq (s' := s) i]
    rfl

/-- Settles O11: a field is the word shifted down and cut off, so the seven fields are the word's digits. -/
theorem fieldsLieWhereTheWordPutsThem : Obligations.FieldsLieWhereTheWordPutsThem := by
  intro w
  have hw := w.isLt
  simp only [CommandFields.ofWord, BitVec.extractLsb'_toNat, Nat.shiftRight_eq_div_pow]
  omega

/-- Settles O14: each word is decoded by evaluation. -/
theorem wordsOfTheSpecDecodeAsListed : Obligations.WordsOfTheSpecDecodeAsListed :=
  ⟨rfl, rfl, rfl, rfl, rfl, rfl, rfl, rfl, rfl⟩

/-- Settles O15: the step is the acceptance, after a `wait` of the host is spent. -/
theorem acceptanceLatchesTheWord : Obligations.AcceptanceLatchesTheWord := by
  intro s w hb hf hp hm
  exact ⟨_, step_of_word_at_port hf hb hm hp, rfl, by simp, rfl, rfl, by simp, by simp, by simpa using hf, by simp, rfl⟩

/-- Settles O18: for any executing block, and so for the state of log 16, whose host has no action. -/
theorem stepRunsTheDecodedInstruction : Obligations.StepRunsTheDecodedInstruction := by
  refine ⟨fun s i => step_of_decode_ok, fun s w i hw => ?_⟩
  have hhost : (s.withFetchWord 96 w).host = [] := rfl
  have hlatch : decode (s.withFetchWord 96 w).latch.toWord = .ok i := by
    rw [State.withFetchWord, State.loadCommand_latch, CommandFields.toWord_ofWord, decodeTableWord_eq_some_iff.mp hw]
  rw [step_of_decode_ok rfl rfl (State.hostMove_of_host_nil hhost) hlatch, State.spendWait_of_host_nil hhost]

end Sys2Proof.Machine

/-! PROOFS of the statements about 40_config_clear.md: first what decode answers on the words of one row, the
must-be-zero bits of a depth operand, and CLEAR's write events as one run with the bytes they cover, then the settled
statements. -/

namespace Sys2Proof

/-! ## The words of one row (30_encoding.md R34; 60_exceptions.md R102) -/

/-- A word with a row's opcode is that row's command if its must-be-zero bits are zero, given in any form `clean`, and
the fault RESERVED_NONZERO otherwise. -/
theorem decode_of_row {w : CommandWord} {op : Opcode} {clean : Prop} [Decidable clean]
    (hopc : (CommandFields.ofWord w).opc = op.code)
    (hclean : clean ↔
      (CommandFields.ofWord w).rsv = 0 ∧ CommandFields.operandsClean op (CommandFields.ofWord w)) :
    if clean then decode w = .ok (op.instr (CommandFields.ofWord w)) else decode w = .error .reservedNonzero := by
  split_ifs with hc
  · obtain ⟨hrsv, hops⟩ := hclean.mp hc
    exact decode_eq_ok_iff.mpr ⟨op, hopc, hrsv, hops, rfl⟩
  · have hm : w &&& op.maskWord ≠ op.matchWord := fun hm => hc (hclean.mpr ((op.matches_iff w).mp hm).2)
    simp only [decode, opcodeOf_eq_some_iff.mpr hopc, if_neg hm]

/-- `C[15:1]` is zero in a clean depth operand only. -/
theorem depth_operand_clean_iff {c : BitVec 16} : c.extractLsb' 1 15 = 0 ↔ c = 0 ∨ c = 1 := by
  simp only [← BitVec.toNat_inj, BitVec.extractLsb'_toNat, Nat.shiftRight_eq_div_pow, BitVec.ofNat_eq_ofNat,
    BitVec.toNat_ofNat]
  omega

theorem depthOfBit_eq_ite (b : Bool) : depthOfBit b = if b then .d24 else .d16 := by cases b <;> rfl

end Sys2Proof

namespace Sys2Proof.Machine

/-! ## CLEAR's write events as one run (40_config_clear.md R42) -/

/-- Rows of equal length, visited row by row, are one run. -/
theorem flatMap_range_map_range {α : Type} (rows len : Nat) (f : Nat → α) :
    (List.range rows).flatMap (fun r => (List.range len).map fun b => f (r * len + b)) =
      (List.range (rows * len)).map f := by
  induction rows with
  | zero => simp
  | succ rows ih => simp [List.range_succ, ih, Nat.succ_mul, List.range_add, Function.comp_def]

theorem Descriptor.clearWrites_eq_run (d : Descriptor) :
    d.clearWrites = (List.range (d.height.toNat * d.stride.toNat)).map fun k =>
      { addr := BitVec.ofNat 32 (d.base.toNat + k), n := 1, v := 0 } := by
  rw [← flatMap_range_map_range]
  simp only [Descriptor.clearWrites, Nat.add_assoc]

/-- CLEAR writes the bytes of the region, wrapped where the address space ends (20_memory.md R25). -/
theorem Descriptor.touched_clearWrites_iff {d : Descriptor} {a : Nat} :
    Touched d.clearWrites a ↔
      ∃ k, k < d.height.toNat * d.stride.toNat ∧ a = (d.base.toNat + k) % 2 ^ 32 := by
  simp [Touched, Descriptor.clearWrites_eq_run, WriteEvent.covers]

/-! ## The statements -/

/-- Settles O22: the rows join into one run, and every event of it leaves 0 in the one byte it covers. -/
theorem clearZeroesEveryByteOfTheRegion : Obligations.ClearZeroesEveryByteOfTheRegion := by
  constructor
  · intro s
    obtain ⟨t, ht, hmem, hbuf, hretired⟩ := everyCommandCompletes .clear s
    refine ⟨s.buf.clearWrites_eq_run, t, ht, hbuf, hretired, hmem, fun k hk => ?_, fun a ha => ?_⟩
    · rw [hmem]
      exact read_performAll_touched _ _ (fun e he => Descriptor.clearWrites_writesOnly he _)
        (Descriptor.touched_clearWrites_iff.mpr ⟨k, hk, rfl⟩)
    · refine exec_read_untouched ht fun htouched => ?_
      obtain ⟨k, hk, hak⟩ := Descriptor.touched_clearWrites_iff.mp htouched
      exact ha k hk hak
  · intro w f hopc
    exact decode_of_row (op := .clear) hopc Iff.rfl

/-- Settles O20: SETBASE completes as every command does, and has no write event. -/
theorem setbaseLoadsTheBase : Obligations.SetbaseLoadsTheBase := by
  refine ⟨?_, ?_, rfl⟩
  · intro base s
    obtain ⟨t, ht, hmem, hbuf, hretired⟩ := everyCommandCompletes (.setbase base) s
    exact ⟨t, ht, hbuf, rfl, hmem, hretired⟩
  · intro w f hopc
    exact decode_of_row (op := .setbase) hopc Iff.rfl

/-- Settles O21: SETGEOM completes as every command does, and has no write event. -/
theorem setgeomLoadsFourRegisters : Obligations.SetgeomLoadsFourRegisters := by
  refine ⟨?_, ?_, rfl⟩
  · intro width height stride depth s
    obtain ⟨t, ht, hmem, hbuf, hretired⟩ := everyCommandCompletes (.setgeom width height stride depth) s
    exact ⟨t, ht, hbuf, rfl, hmem, hretired⟩
  · intro w f hopc
    rw [← depthOfBit_eq_ite]
    exact decode_of_row (op := .setgeom) hopc (and_congr_right fun _ => depth_operand_clean_iff)

end Sys2Proof.Machine

/-! PROOFS of the statements about 41_pack_plot.md: first three channels of one value in a pixel, what a list of write
events does at one address whatever it finds there, and which bytes a plot event covers, then the settled
statements. -/

namespace Sys2Proof.Machine

/-! ## Three channels of one value (41_pack_plot.md R51, R52) -/

/-- Channels that do not overlap: joining them by bits adds them. -/
theorem or_three_channels {v mid hi : Nat} (hmid : v < 2 ^ mid) (hhi : v <<< mid + v < 2 ^ hi) :
    v <<< hi ||| v <<< mid ||| v = v * 2 ^ hi + v * 2 ^ mid + v := by
  rw [Nat.or_assoc, ← Nat.shiftLeft_add_eq_or_of_lt hmid, ← Nat.shiftLeft_add_eq_or_of_lt hhi, Nat.shiftLeft_eq,
    Nat.shiftLeft_eq, Nat.add_assoc]

/-- A shift that carries nothing past the width is a shift of numbers. -/
theorem toNat_shiftLeft_of_lt {w n : Nat} {v : BitVec w} (h : v.toNat * 2 ^ n < 2 ^ w) :
    (v <<< n).toNat = v.toNat <<< n := by
  rw [BitVec.toNat_shiftLeft, Nat.mod_eq_of_lt (by rwa [Nat.shiftLeft_eq])]

/-- `Pack16` by value. -/
theorem pack16_toNat (c : BitVec 16) :
    (pack16 c).toNat = c.toNat / 8 % 32 * 2 ^ 11 + c.toNat / 8 % 32 * 2 ^ 6 + c.toNat / 8 % 32 := by
  have hv : ((c.extractLsb' 3 5).setWidth 16).toNat = c.toNat / 8 % 32 := by
    simp only [BitVec.toNat_setWidth, BitVec.extractLsb'_toNat, Nat.shiftRight_eq_div_pow]
    omega
  rw [pack16, BitVec.toNat_or, BitVec.toNat_or, toNat_shiftLeft_of_lt (by omega), toNat_shiftLeft_of_lt (by omega), hv,
    or_three_channels (by omega) (by omega)]

/-- `Pack24` by value. -/
theorem pack24_toNat (c : BitVec 16) :
    (pack24 c).toNat = c.toNat % 256 * 2 ^ 16 + c.toNat % 256 * 2 ^ 8 + c.toNat % 256 := by
  have hg : ((c.extractLsb' 0 8).setWidth 32).toNat = c.toNat % 256 := by
    simp only [BitVec.toNat_setWidth, BitVec.extractLsb'_toNat, Nat.shiftRight_zero]
    omega
  rw [pack24, BitVec.toNat_or, BitVec.toNat_or, toNat_shiftLeft_of_lt (by omega), toNat_shiftLeft_of_lt (by omega), hg,
    or_three_channels (by omega) (by omega)]

/-! ## Write events performed again (20_memory.md R24) -/

/-- At one address the bytes of a write event keep what they find, or leave a byte that does not depend on it. -/
theorem WriteEvent.read_bytesInto_keeps_or_sets (e : WriteEvent) (k a : Nat) :
    (∀ m, Memory.read (e.bytesInto k m) a = Memory.read m a) ∨
      ∃ v, ∀ m, Memory.read (e.bytesInto k m) a = some v := by
  induction k with
  | zero => exact Or.inl fun _ => rfl
  | succ k ih =>
    by_cases ha : a = (e.addr.toNat + k) % 2 ^ 32
    · exact Or.inr ⟨_, fun m => by rw [WriteEvent.bytesInto, ha, Memory.read_write_same]⟩
    · simpa only [WriteEvent.bytesInto, Memory.read_write_other _ _ ha] using ih

/-- At one address write events keep what they find, or leave a byte that does not depend on it. -/
theorem read_performAll_keeps_or_sets (es : List WriteEvent) (a : Nat) :
    (∀ m, Memory.read (performAll es m) a = Memory.read m a) ∨
      ∃ v, ∀ m, Memory.read (performAll es m) a = some v := by
  induction es with
  | nil => exact Or.inl fun _ => rfl
  | cons e es ih =>
    obtain hkeep | ⟨v, hset⟩ := ih
    · simp only [performAll_cons, hkeep]
      exact e.read_bytesInto_keeps_or_sets e.n a
    · exact Or.inr ⟨v, fun m => hset _⟩

/-- Write events performed again leave every byte as once, however they overlap. -/
theorem read_performAll_twice (es : List WriteEvent) (m : Memory) (a : Nat) :
    Memory.read (performAll es (performAll es m)) a = Memory.read (performAll es m) a := by
  obtain hkeep | ⟨v, hset⟩ := read_performAll_keeps_or_sets es a
  · exact hkeep _
  · rw [hset, hset]

/-! ## The plot event (41_pack_plot.md R53, R54, R56) -/

theorem Descriptor.plotWrites_of_dropped {d : Descriptor} {p : Point} (h : d.dropped p = true) (c : BitVec 16) :
    d.plotWrites c p = [] := if_pos h

theorem Descriptor.plotWrites_of_accepted {d : Descriptor} {p : Point} (h : d.dropped p = false) (c : BitVec 16) :
    d.plotWrites c p =
      [d.pixelWrite c (2 * p.x.toNat) (2 * p.y.toNat), d.pixelWrite c (2 * p.x.toNat + 1) (2 * p.y.toNat),
        d.pixelWrite c (2 * p.x.toNat) (2 * p.y.toNat + 1),
        d.pixelWrite c (2 * p.x.toNat + 1) (2 * p.y.toNat + 1)] := by
  rw [Descriptor.plotWrites, h, if_neg Bool.false_ne_true]

theorem Descriptor.plotWrites_eq_nil_iff {d : Descriptor} {c : BitVec 16} {p : Point} :
    d.plotWrites c p = [] ↔ d.dropped p = true := by
  cases h : d.dropped p with
  | true => simp [Descriptor.plotWrites_of_dropped h]
  | false => simp [Descriptor.plotWrites_of_accepted h]

/-- A dropped point, in plain inequalities. -/
theorem Descriptor.dropped_eq_true (d : Descriptor) (p : Point) :
    d.dropped p = true ↔ p.x < 0 ∨ p.y < 0 ∨ d.xlim ≤ p.x ∨ d.ylim ≤ p.y := by
  rw [← Bool.not_eq_false, Descriptor.dropped_eq_false]
  omega

/-- The native pixels of an accepted point stay off the last two columns and rows. -/
theorem Descriptor.accepted_pixel_bounds {d : Descriptor} {p : Point} (h : d.dropped p = false) :
    0 ≤ 2 * p.x ∧ 2 * p.x + 1 ≤ (d.width.toNat : Int) - 3 ∧ 0 ≤ 2 * p.y ∧
      2 * p.y + 1 ≤ (d.height.toNat : Int) - 3 := by
  obtain ⟨hx0, hy0, hx, hy⟩ := (d.dropped_eq_false p).mp h
  rw [Descriptor.xlim] at hx
  rw [Descriptor.ylim] at hy
  omega

/-- Under the duties each byte of the four native pixels of an accepted point has its plain address, without a wrap. -/
theorem Descriptor.plot_byte_addr {d : Descriptor} {p : Point} {i j b : Nat} (hd : d.Duties) (h : d.dropped p = false)
    (hi : i ≤ 1) (hj : j ≤ 1) (hb : b < bytesPerPixel d.depth) :
    ((d.pixAddr (2 * p.x.toNat + i) (2 * p.y.toNat + j)).toNat + b) % 2 ^ 32 =
      d.base.toNat + (2 * p.y.toNat + j) * d.stride.toNat + (2 * p.x.toNat + i) * bytesPerPixel d.depth + b := by
  obtain ⟨hx0, hx, hy0, hy⟩ := Descriptor.accepted_pixel_bounds h
  rw [Descriptor.pixel_byte_addr hd (by omega) (by omega) hb, ← Nat.add_assoc]

/-- Under the duties an accepted plot event covers the bytes of its four native pixels and no other. -/
theorem Descriptor.touched_plotWrites_iff {d : Descriptor} {p : Point} {c : BitVec 16} {a : Nat} (hd : d.Duties)
    (h : d.dropped p = false) :
    Touched (d.plotWrites c p) a ↔
      ∃ i j b, i ≤ 1 ∧ j ≤ 1 ∧ b < bytesPerPixel d.depth ∧
        a = d.base.toNat + (2 * p.y.toNat + j) * d.stride.toNat + (2 * p.x.toNat + i) * bytesPerPixel d.depth + b := by
  constructor
  · rintro ⟨e, he, b, hb, rfl⟩
    obtain ⟨-, i, j, hi, hj, rfl⟩ := Descriptor.mem_plotWrites.mp he
    exact ⟨i, j, b, hi, hj, hb, Descriptor.plot_byte_addr hd h hi hj hb⟩
  · rintro ⟨i, j, b, hi, hj, hb, rfl⟩
    exact ⟨_, Descriptor.mem_plotWrites.mpr ⟨h, i, j, hi, hj, rfl⟩, b, hb,
      (Descriptor.plot_byte_addr hd h hi hj hb).symm⟩

/-- Under the duties an accepted plot event leaves byte `b` of the packed color as byte `b` of each of its pixels. -/
theorem Descriptor.read_plotWrites_pixel {d : Descriptor} {p : Point} {i j b : Nat} (hd : d.Duties)
    (h : d.dropped p = false) (hi : i ≤ 1) (hj : j ≤ 1) (hb : b < bytesPerPixel d.depth) (c : BitVec 16)
    (m : Memory) :
    Memory.read (performAll (d.plotWrites c p) m)
        (d.base.toNat + (2 * p.y.toNat + j) * d.stride.toNat + (2 * p.x.toNat + i) * bytesPerPixel d.depth + b) =
      some (BitVec.ofNat 8 ((pack d.depth c).toNat >>> (8 * b))) := by
  obtain ⟨hx0, hx, hy0, hy⟩ := Descriptor.accepted_pixel_bounds h
  rw [read_performAll_touched _ m
      (fun e he => Descriptor.drawWrites_writesOnly hd ((d.drawWrites_singleton c p).symm ▸ he) _)
      ((Descriptor.touched_plotWrites_iff hd h).mpr ⟨i, j, b, hi, hj, hb, rfl⟩),
    Nat.add_assoc, Descriptor.byteIndex_pixel hd (by omega) hb, byteOf_byteOrder]

/-! ## The statements -/

/-- Settles O26: PLOT completes as every command does, and again from the end of the first with the same write
events. -/
theorem plotRunsOnePlotEvent : Obligations.PlotRunsOnePlotEvent := by
  constructor
  · intro x y c s
    obtain ⟨t, ht, hmem, hbuf, hretired⟩ := everyCommandCompletes (.plot x y c) s
    obtain ⟨u, hu, hmem', -, -⟩ := everyCommandCompletes (.plot x y c) t
    refine ⟨t, ht, hmem, hbuf, hretired, u, hu, fun a => ?_⟩
    rw [hmem', commandWrites_eq_of_buf_eq _ hbuf, hmem, read_performAll_twice]
  · intro w f hopc
    exact decode_of_row (op := .plot) hopc Iff.rfl

/-- Settles O28: a dropped PLOT has no write event; an accepted one covers the bytes of its block, each with its byte
of the packed color. -/
theorem plottedBlockHoldsThePackedColor : Obligations.PlottedBlockHoldsThePackedColor := by
  intro s x y c hd
  obtain ⟨t, ht, hmem, -, -⟩ := everyCommandCompletes (.plot x y c) s
  refine ⟨t, ht, ?_⟩
  split_ifs with hdrop
  · intro a
    rw [hmem, commandWrites, Descriptor.plotWrites_of_dropped hdrop, performAll_nil]
  · have hin : s.buf.dropped ⟨x, y⟩ = false := Bool.eq_false_of_not_eq_true hdrop
    refine ⟨fun i j b hi hj hb => ?_, fun a ha => exec_read_untouched ht fun htouched => ?_⟩
    · rw [hmem]
      exact Descriptor.read_plotWrites_pixel hd hin hi hj hb c s.mem
    · obtain ⟨i, j, b, hi, hj, hb, hab⟩ := (Descriptor.touched_plotWrites_iff hd hin).mp htouched
      exact ha i j b hi hj hb hab

/-- Settles O23: `Pack` is one of the two packers, whose channels do not overlap. -/
theorem packersPlaceTheirBits : Obligations.PackersPlaceTheirBits := by
  refine fun c => ⟨?_, pack24_toNat c⟩
  rw [pack, BitVec.toNat_setWidth_of_le (by decide)]
  exact pack16_toNat c

/-- Settles O24: a plot event has no write event exactly when it is dropped, and then PLOT performs nothing. -/
theorem plotIsDroppedOutsideTheBounds : Obligations.PlotIsDroppedOutsideTheBounds := by
  intro s x y c
  have hnil : s.buf.plotWrites c ⟨x, y⟩ = [] ↔ _ :=
    Descriptor.plotWrites_eq_nil_iff.trans (s.buf.dropped_eq_true ⟨x, y⟩)
  refine ⟨hnil, fun hsmall => hnil.mpr ?_, fun hdrop => ?_⟩
  · simp only [Descriptor.xlim, Descriptor.ylim]
    omega
  · obtain ⟨t, ht, hmem, hbuf, hretired⟩ := everyCommandCompletes (.plot x y c) s
    refine ⟨t, ht, ?_, hbuf, hretired⟩
    rw [hmem, commandWrites, hdrop, performAll_nil]

/-- Settles O25: a point within the limits is accepted. -/
theorem acceptedPlotWritesFourPixels : Obligations.AcceptedPlotWritesFourPixels := by
  intro d c x y hx hy
  refine Descriptor.plotWrites_of_accepted ((d.dropped_eq_false _).mpr ?_) c
  simp only [Descriptor.xlim, Descriptor.ylim]
  omega

/-- Settles O27: by the bounds of an accepted point's native pixels. -/
theorem acceptedPixelsStayOffTheLastColumns : Obligations.AcceptedPixelsStayOffTheLastColumns :=
  fun _ _ => Descriptor.accepted_pixel_bounds

end Sys2Proof.Machine

/-! PROOFS of the statements about 42_line.md: first the carry of one pass, the point a walk has reached after any
number of passes, the step of the general case, and one closed form for the plot events of all four cases, then the
settled statements. -/

namespace Sys2Proof.Machine

/-! ## The carry counts the overflows of the accumulator (42_line.md R68) -/

/-- The carry of one addition to the accumulator is the 65536 that its wrap takes from the running sum, whatever `n` is
added later. A step of 0 would carry always; the general case has none. -/
theorem add_step_div (acc step : BitVec 16) (h : 1 ≤ step.toNat) (n : Nat) :
    (acc.toNat + step.toNat + n) / 65536 =
      (if carry (acc + step) acc then 1 else 0) + ((acc + step).toNat + n) / 65536 := by
  have hsum : (acc + step).toNat = (acc.toNat + step.toNat) % 65536 := BitVec.toNat_add acc step
  simp only [carry, hsum, decide_eq_true_eq]
  split_ifs <;> omega

/-! ## The walk in closed form (42_line.md R65 to R68) -/

/-- The point `i` units along the major axis and `j` along the minor one. -/
def LineRegs.pointAt (r : LineRegs) (i j : Nat) : Point :=
  if r.dx < r.dy then ⟨r.x0 + j * r.xdir, r.y0 + i⟩ else ⟨r.x0 + i * r.xdir, r.y0 + j⟩

/-- How many units along the minor axis `i` passes of a case move. -/
def LineRegs.minorAfter (k : LineCase) (r : LineRegs) (i : Nat) : Nat :=
  match k with
  | .horizontal => 0
  | .vertical => 0
  | .diagonal => i
  | .general => (r.acc.toNat + i * r.step.toNat) / 65536

/-- What the choice of a case says of the deltas (42_line.md R64). -/
def LineCase.Deltas (k : LineCase) (r : LineRegs) : Prop :=
  match k with
  | .horizontal => r.dy = 0
  | .vertical => r.dx = 0 ∧ 0 < r.dy
  | .diagonal => r.dx = r.dy ∧ 0 < r.dy
  | .general => 0 < r.dx ∧ 0 < r.dy ∧ r.dx ≠ r.dy

theorem LineRegs.kind_deltas {k : LineCase} {r : LineRegs} (h : r.kind = k) : k.Deltas r := by
  subst h
  unfold LineRegs.kind
  split_ifs with hy hx hxy
  · exact hy
  · exact ⟨hx, Nat.pos_of_ne_zero hy⟩
  · exact ⟨hxy, Nat.pos_of_ne_zero hy⟩
  · exact ⟨Nat.pos_of_ne_zero hx, Nat.pos_of_ne_zero hy, hxy⟩

/-- The case is chosen by registers that no pass writes. -/
theorem LineRegs.kind_advance (k : LineCase) (r : LineRegs) : (r.advance k).kind = r.kind := by
  obtain ⟨-, -, hdx, hdy, -, -⟩ := r.advance_fixed k
  rw [LineRegs.kind, LineRegs.kind, hdx, hdy]

theorem LineRegs.kind_load (k : LineCase) (r : LineRegs) : (r.load k).kind = r.kind := by
  cases k <;> rfl

theorem LineRegs.advance_general_acc (r : LineRegs) : (r.advance .general).acc = r.acc + r.step := by
  by_cases hd : r.dx < r.dy <;> simp [LineRegs.advance, hd]

theorem LineRegs.minorAfter_general_succ (r : LineRegs) (hs : 1 ≤ r.step.toNat) (i : Nat) :
    r.minorAfter .general (i + 1) =
      (if carry (r.acc + r.step) r.acc then 1 else 0) + (r.advance .general).minorAfter .general i := by
  obtain ⟨-, -, -, -, -, hstep⟩ := r.advance_fixed .general
  simp only [LineRegs.minorAfter, hstep, LineRegs.advance_general_acc, ← add_step_div _ _ hs]
  congr 1
  ring

/-- A pass of the general case moves one unit along the major axis, and one along the minor axis if it carries. -/
theorem LineRegs.pointAt_advance_general (r : LineRegs) (i j : Nat) :
    (r.advance .general).pointAt i j =
      r.pointAt (i + 1) ((if carry (r.acc + r.step) r.acc then 1 else 0) + j) := by
  by_cases hd : r.dx < r.dy
  · simp only [LineRegs.pointAt, LineRegs.advance, if_pos hd, Point.mk.injEq]
    split_ifs <;> exact ⟨by push_cast; ring, by push_cast; ring⟩
  · simp only [LineRegs.pointAt, LineRegs.advance, if_neg hd, Point.mk.injEq]
    split_ifs <;> exact ⟨by push_cast; ring, by push_cast; ring⟩

/-- After no pass the walk is at its start, where the accumulator has not reached 65536. -/
theorem LineRegs.pointAt_zero (k : LineCase) (r : LineRegs) : r.pointAt 0 (r.minorAfter k 0) = r.point := by
  have hacc : r.acc.toNat / 65536 = 0 := Nat.div_eq_of_lt r.acc.isLt
  cases k <;> simp [LineRegs.pointAt, LineRegs.minorAfter, LineRegs.point, hacc]

/-- The point after `i + 1` passes is the one after `i` passes from where the first pass leads. -/
theorem LineRegs.pointAt_succ {k : LineCase} {r : LineRegs} (hk : r.kind = k)
    (hs : k = .general → 1 ≤ r.step.toNat) (i : Nat) :
    r.pointAt (i + 1) (r.minorAfter k (i + 1)) = (r.advance k).pointAt i ((r.advance k).minorAfter k i) := by
  cases k with
  | horizontal =>
    have hdy : r.dy = 0 := LineRegs.kind_deltas hk
    simp only [LineRegs.pointAt, LineRegs.minorAfter, LineRegs.advance, hdy, Nat.not_lt_zero, if_false, Point.mk.injEq]
    exact ⟨by push_cast; ring, trivial⟩
  | vertical =>
    obtain ⟨hdx, hdy⟩ : r.dx = 0 ∧ 0 < r.dy := LineRegs.kind_deltas hk
    simp only [LineRegs.pointAt, LineRegs.minorAfter, LineRegs.advance, hdx, hdy, if_true, Point.mk.injEq]
    exact ⟨trivial, by push_cast; ring⟩
  | diagonal =>
    obtain ⟨hdx, -⟩ : r.dx = r.dy ∧ 0 < r.dy := LineRegs.kind_deltas hk
    simp only [LineRegs.pointAt, LineRegs.minorAfter, LineRegs.advance, hdx, lt_irrefl, if_false, Point.mk.injEq]
    exact ⟨by push_cast; ring, by push_cast; ring⟩
  | general => rw [r.minorAfter_general_succ (hs rfl), LineRegs.pointAt_advance_general]

/-- The points of a walk, its start first. -/
theorem LineRegs.walk_points {k : LineCase} {r : LineRegs} (hk : r.kind = k)
    (hs : k = .general → 1 ≤ r.step.toNat) (n : Nat) :
    (r :: LineRegs.walk k n r).map LineRegs.point =
      (List.range (n + 1)).map fun i => r.pointAt i (r.minorAfter k i) := by
  induction n generalizing r with
  | zero => simp [LineRegs.pointAt_zero]
  | succ n ih =>
    obtain ⟨-, -, -, -, -, hstep⟩ := r.advance_fixed k
    rw [List.map_cons, LineRegs.walk_succ, ih ((r.kind_advance k).trans hk) (by rwa [hstep]),
      List.range_succ_eq_map (n := n + 1), List.map_cons, List.map_map, LineRegs.pointAt_zero]
    simp only [Function.comp_def, Nat.succ_eq_add_one, LineRegs.pointAt_succ hk hs]

/-- The passes of the general case that carry are its moves along the minor axis. -/
theorem LineRegs.countP_carry_walk (r : LineRegs) (hs : 1 ≤ r.step.toNat) (n : Nat) :
    (((r :: LineRegs.walk .general n r).zip (LineRegs.walk .general n r)).countP fun p => carry p.2.acc p.1.acc) =
      r.minorAfter .general n := by
  induction n generalizing r with
  | zero => simp [LineRegs.minorAfter, Nat.div_eq_of_lt r.acc.isLt]
  | succ n ih =>
    obtain ⟨-, -, -, -, -, hstep⟩ := r.advance_fixed .general
    rw [r.minorAfter_general_succ hs, LineRegs.walk_succ, List.zip_cons_cons, List.countP_cons,
      ih _ (by rwa [hstep]), LineRegs.advance_general_acc, Nat.add_comm]

/-! ## The step of a line (42_line.md R68) -/

theorem LineRegs.minor_bounds_of_general {r : LineRegs} (hk : r.kind = .general) :
    1 ≤ r.minor ∧ r.minor < r.major := by
  obtain ⟨hdx, hdy, hne⟩ : 0 < r.dx ∧ 0 < r.dy ∧ r.dx ≠ r.dy := LineRegs.kind_deltas hk
  rw [LineRegs.minor, LineRegs.major]
  omega

/-- A line that moves along one axis only, or along both alike, is not in the general case. -/
theorem LineRegs.kind_ne_general {r : LineRegs} (h : r.minor = 0 ∨ r.minor = r.major) : r.kind ≠ .general := by
  intro hk
  obtain ⟨hpos, hlt⟩ := LineRegs.minor_bounds_of_general hk
  omega

theorem LineRegs.errorStep_eq (r : LineRegs) : r.errorStep = r.minor * 65536 / r.major := by
  rw [LineRegs.errorStep, Nat.shiftLeft_eq]

/-- The step of the general case fits 16 bits and is not 0. -/
theorem LineRegs.errorStep_bounds {r : LineRegs} (hpos : 1 ≤ r.minor) (hlt : r.minor < r.major)
    (hmax : r.major ≤ 65535) :
    1 ≤ r.errorStep ∧ r.errorStep ≤ 65535 := by
  rw [LineRegs.errorStep_eq, Nat.le_div_iff_mul_le (by omega), Nat.div_le_iff_le_mul_add_pred (by omega)]
  omega

/-- `major - 1` passes of the general case carry one or two times fewer than the minor delta has units. -/
theorem LineRegs.carries_bounds {r : LineRegs} (hpos : 1 ≤ r.minor) (hlt : r.minor < r.major)
    (hmax : r.major ≤ 65535) :
    (r.major - 1) * r.errorStep / 65536 + 1 = r.minor ∨ (r.major - 1) * r.errorStep / 65536 + 2 = r.minor := by
  obtain ⟨hlo, hhi⟩ := LineRegs.errorStep_bounds hpos hlt hmax
  have hsum := Nat.div_add_mod (r.minor * 65536) r.major
  have hmod := Nat.mod_lt (r.minor * 65536) (show 0 < r.major by omega)
  rw [← r.errorStep_eq] at hsum
  rw [Nat.sub_mul]
  omega

/-! ## One closed form for all four cases -/

/-- How many units along the minor axis plot event `i` lies from the start. -/
def LineRegs.minorAt (r : LineRegs) (i : Nat) : Nat :=
  if i < r.major then i * r.errorStep / 65536 else r.minor

theorem LineRegs.minorAt_major (r : LineRegs) : r.minorAt r.major = r.minor := if_neg (lt_irrefl _)

theorem LineRegs.minorAt_of_minor_eq_zero {r : LineRegs} (h : r.minor = 0) (i : Nat) : r.minorAt i = 0 := by
  simp [LineRegs.minorAt, LineRegs.errorStep_eq, h]

/-- With equal deltas the step is 65536 exactly. -/
theorem LineRegs.minorAt_of_minor_eq_major {r : LineRegs} (h : r.minor = r.major) {i : Nat} (hi : i ≤ r.major) :
    r.minorAt i = i := by
  rw [LineRegs.minorAt]
  split_ifs with hlt
  · rw [LineRegs.errorStep_eq, h, Nat.mul_div_cancel_left _ (by omega), Nat.mul_div_cancel _ (by omega)]
  · omega

theorem LineRegs.minor_le_major (r : LineRegs) : r.minor ≤ r.major := min_le_max

/-- Between consecutive plot events the minor coordinate moves by 0 or 1 unit, and by at most 2 at the end point of a
general line; without a minor delta it does not move (42_line.md R69 (c)). -/
theorem LineRegs.minorAt_succ_bounds {r : LineRegs} (hmax : r.major ≤ 65535) {i : Nat} (hi : i < r.major) :
    r.minorAt i ≤ r.minorAt (i + 1) ∧ (r.minor = 0 → r.minorAt (i + 1) = r.minorAt i) ∧
      (r.minorAt (i + 1) ≤ r.minorAt i + 1 ∨
        i + 1 = r.major ∧ 0 < r.minor ∧ r.minor < r.major ∧ r.minorAt (i + 1) ≤ r.minorAt i + 2) := by
  obtain h0 | hpos := Nat.eq_zero_or_pos r.minor
  · simp [LineRegs.minorAt_of_minor_eq_zero h0]
  obtain heq | hlt := r.minor_le_major.eq_or_lt
  · rw [LineRegs.minorAt_of_minor_eq_major heq hi.le, LineRegs.minorAt_of_minor_eq_major heq hi]
    omega
  rw [LineRegs.minorAt, LineRegs.minorAt, if_pos hi]
  obtain hlast | hinner := (Nat.succ_le_of_lt hi).eq_or_lt
  · have hcarries := LineRegs.carries_bounds hpos hlt hmax
    obtain rfl : i = r.major - 1 := by omega
    rw [if_neg (by omega)]
    omega
  · obtain ⟨-, hstep⟩ := LineRegs.errorStep_bounds hpos hlt hmax
    rw [if_pos hinner, Nat.succ_mul]
    omega

@[simp] theorem LineRegs.pointAt_load (k : LineCase) (r : LineRegs) (i j : Nat) :
    (r.load k).pointAt i j = r.pointAt i j := by
  cases k <;> rfl

@[simp] theorem LineRegs.point_load (k : LineCase) (r : LineRegs) : (r.load k).point = r.point := by
  cases k <;> rfl

/-- The direction of x leads from the start toward the end (42_line.md R63). -/
theorem LineRegs.add_mul_setup_xdir (r : LineRegs) (g : Segment) (n : Int) :
    (r.setup g).x0 + n * (r.setup g).xdir =
      if (r.setup g).x0 ≤ (r.setup g).x1 then (r.setup g).x0 + n else (r.setup g).x0 - n := by
  simp only [LineRegs.setup, Int.sub_nonneg]
  split_ifs <;> ring

/-- The full deltas lead to the end point. -/
theorem LineRegs.pointAt_setup_major_minor (r : LineRegs) (g : Segment) :
    (r.setup g).pointAt (r.setup g).major (r.setup g).minor = ⟨(r.setup g).x1, (r.setup g).y1⟩ := by
  obtain ⟨hx0, hy0, hx1, hy1, hdx, hdy⟩ := r.setup_fields g
  simp only [LineRegs.pointAt, LineRegs.major, LineRegs.minor, LineRegs.add_mul_setup_xdir]
  split_ifs <;> simp only [Point.mk.injEq] <;> omega

/-- How often a case repeats its pass: the general one leaves its end point to the final plot event. -/
theorem LineRegs.cnt_load (r : LineRegs) :
    (r.load r.kind).cnt = if r.kind = .general then r.major - 1 else r.major := by
  cases hk : r.kind with
  | horizontal =>
    have hdy : r.dy = 0 := LineRegs.kind_deltas hk
    simp [LineRegs.load, LineRegs.major, hdy]
  | vertical =>
    obtain ⟨hdx, -⟩ : r.dx = 0 ∧ 0 < r.dy := LineRegs.kind_deltas hk
    simp [LineRegs.load, LineRegs.major, hdx]
  | diagonal =>
    obtain ⟨hdx, -⟩ : r.dx = r.dy ∧ 0 < r.dy := LineRegs.kind_deltas hk
    simp [LineRegs.load, LineRegs.major, hdx]
  | general => rfl

/-- A step that fits its register is what the register holds. -/
theorem LineRegs.toNat_step_load_general {r : LineRegs} (h : r.errorStep ≤ 65535) :
    (r.load .general).step.toNat = r.errorStep :=
  Nat.mod_eq_of_lt (Nat.lt_succ_of_le h)

/-- The accumulator of the general case starts from 0. -/
theorem LineRegs.minorAfter_load_general {r : LineRegs} (h : r.errorStep ≤ 65535) (i : Nat) :
    (r.load .general).minorAfter .general i = i * r.errorStep / 65536 := by
  rw [LineRegs.minorAfter, LineRegs.toNat_step_load_general h]
  simp [LineRegs.load]

/-- The passes of every case move along the minor axis as the one closed form says. -/
theorem LineRegs.minorAfter_load {r : LineRegs} (h : r.kind = .general → r.major ≤ 65535) {i : Nat}
    (hi : i ≤ (r.load r.kind).cnt) : (r.load r.kind).minorAfter r.kind i = r.minorAt i := by
  rw [LineRegs.cnt_load] at hi
  cases hk : r.kind with
  | horizontal =>
    have hdy : r.dy = 0 := LineRegs.kind_deltas hk
    exact (LineRegs.minorAt_of_minor_eq_zero (by simp [LineRegs.minor, hdy]) i).symm
  | vertical =>
    obtain ⟨hdx, -⟩ : r.dx = 0 ∧ 0 < r.dy := LineRegs.kind_deltas hk
    exact (LineRegs.minorAt_of_minor_eq_zero (by simp [LineRegs.minor, hdx]) i).symm
  | diagonal =>
    obtain ⟨hdx, -⟩ : r.dx = r.dy ∧ 0 < r.dy := LineRegs.kind_deltas hk
    have hle : i ≤ r.major := by simpa [hk] using hi
    exact (LineRegs.minorAt_of_minor_eq_major (by simp [LineRegs.minor, LineRegs.major, hdx]) hle).symm
  | general =>
    obtain ⟨hpos, hlt⟩ := LineRegs.minor_bounds_of_general hk
    obtain ⟨-, hfits⟩ := LineRegs.errorStep_bounds hpos hlt (h hk)
    rw [if_pos hk] at hi
    rw [LineRegs.minorAfter_load_general hfits, LineRegs.minorAt, if_pos (by omega)]

/-- The points from the start through the passes of any case's loop. -/
theorem LineRegs.walk_load_points {r : LineRegs} (h : r.kind = .general → r.major ≤ 65535) :
    (r.load r.kind :: LineRegs.walk r.kind (r.load r.kind).cnt (r.load r.kind)).map LineRegs.point =
      (List.range ((r.load r.kind).cnt + 1)).map fun i => r.pointAt i (r.minorAt i) := by
  have hs : r.kind = .general → 1 ≤ (r.load r.kind).step.toNat := fun hk => by
    obtain ⟨hpos, hlt⟩ := LineRegs.minor_bounds_of_general hk
    obtain ⟨hstep, hfits⟩ := LineRegs.errorStep_bounds hpos hlt (h hk)
    rwa [hk, LineRegs.toNat_step_load_general hfits]
  rw [LineRegs.walk_points (r.kind_load r.kind) hs]
  refine List.map_congr_left fun i hi => ?_
  rw [LineRegs.pointAt_load, LineRegs.minorAfter_load h (Nat.lt_succ_iff.mp (List.mem_range.mp hi))]

/-- `DrawLine` is the start and the walk of its case, and the end point after the general case. -/
theorem drawLine_points_eq_walk (r : LineRegs) (g : Segment) :
    (drawLine r g).points =
      ((r.setup g).load (r.setup g).kind ::
        LineRegs.walk (r.setup g).kind ((r.setup g).load (r.setup g).kind).cnt
          ((r.setup g).load (r.setup g).kind)).map LineRegs.point ++
      if (r.setup g).kind = .general then [⟨(r.setup g).x1, (r.setup g).y1⟩] else [] := by
  rw [List.map_cons, LineRegs.point_load]
  cases hk : (r.setup g).kind <;> simp [drawLine, hk, LineRegs.load]

/-- A line has as many plot events as units along its major axis, and one more (42_line.md R69 (b)). -/
theorem drawLine_points_length (r : LineRegs) (g : Segment) :
    (drawLine r g).points.length = (r.setup g).major + 1 := by
  rw [drawLine_points_eq_walk, LineRegs.cnt_load]
  split_ifs with hk
  · obtain ⟨-, hlt⟩ := LineRegs.minor_bounds_of_general hk
    simp only [List.length_append, List.length_cons, List.length_map, LineRegs.walk_length, List.length_nil]
    omega
  · simp

/-- The plot events of every line: one per unit along the major axis, each as many units along the minor one as
`minorAt` says (42_line.md R62, R65 to R68). The step of a general line fits its register within the bound. -/
theorem drawLine_points (r : LineRegs) (g : Segment)
    (h : (r.setup g).kind = .general → (r.setup g).major ≤ 65535) :
    (drawLine r g).points =
      (List.range ((r.setup g).major + 1)).map fun i => (r.setup g).pointAt i ((r.setup g).minorAt i) := by
  rw [drawLine_points_eq_walk, LineRegs.walk_load_points h, LineRegs.cnt_load]
  split_ifs with hk
  · obtain ⟨-, hlt⟩ := LineRegs.minor_bounds_of_general hk
    rw [Nat.sub_add_cancel (by omega), List.range_succ (n := (r.setup g).major), List.map_append, List.map_singleton,
      LineRegs.minorAt_major, LineRegs.pointAt_setup_major_minor]
  · rw [List.append_nil]

/-- Two segments that R61 makes the same are drawn the same. -/
theorem drawLine_congr_normalise (r : LineRegs) {g g' : Segment} (h : g.normalise = g'.normalise) :
    drawLine r g = drawLine r g' := by
  simp only [drawLine, LineRegs.setup, h]

/-- Either order of two end points with different y is one segment after R61. -/
theorem Segment.normalise_swap {x0 y0 x1 y1 : Int} (h : y0 ≠ y1) :
    Segment.normalise ⟨x0, y0, x1, y1⟩ = Segment.normalise ⟨x1, y1, x0, y0⟩ := by
  obtain hlt | hgt := lt_or_gt_of_ne h
  · simp [Segment.normalise, hlt, hlt.le]
  · simp [Segment.normalise, hgt, hgt.le]

/-! ## Lines given from top to bottom (42_line.md R61, R63) -/

/-- A segment that R61 does not exchange is set up as it is given. -/
theorem LineRegs.setup_of_le (r : LineRegs) {x0 y0 x1 y1 : Int} (h : y0 ≤ y1) :
    r.setup ⟨x0, y0, x1, y1⟩ =
      { r with
        x0 := x0
        y0 := y0
        x1 := x1
        y1 := y1
        xdir := if x0 ≤ x1 then 1 else -1
        dx := (x1 - x0).natAbs
        dy := (y1 - y0).toNat } := by
  simp [LineRegs.setup, Segment.normalise, not_lt.mpr h]

section Ordered

variable (r : LineRegs) {x0 y0 x1 y1 : Int} (h : y0 ≤ y1)
include h

theorem LineRegs.major_setup_of_le :
    (r.setup ⟨x0, y0, x1, y1⟩).major = max (x1 - x0).natAbs (y1 - y0).toNat := by
  rw [LineRegs.setup_of_le r h]; rfl

theorem LineRegs.minor_setup_of_le :
    (r.setup ⟨x0, y0, x1, y1⟩).minor = min (x1 - x0).natAbs (y1 - y0).toNat := by
  rw [LineRegs.setup_of_le r h]; rfl

theorem LineRegs.pointAt_setup_of_le (i j : Nat) :
    (r.setup ⟨x0, y0, x1, y1⟩).pointAt i j =
      if (x1 - x0).natAbs < (y1 - y0).toNat then ⟨if x0 ≤ x1 then x0 + j else x0 - j, y0 + i⟩
      else ⟨if x0 ≤ x1 then x0 + i else x0 - i, y0 + j⟩ := by
  simp only [LineRegs.pointAt, LineRegs.add_mul_setup_xdir]
  rw [LineRegs.setup_of_le r h]

end Ordered

/-! ## The statements -/

/-- Settles O33: nothing moves along y. -/
theorem horizontalLineEvents : Obligations.HorizontalLineEvents := by
  intro r x0 x1 y
  have hminor : (r.setup ⟨x0, y, x1, y⟩).minor = 0 := by simp [LineRegs.minor_setup_of_le]
  rw [drawLine_points r _ fun hk => absurd hk (LineRegs.kind_ne_general (.inl hminor))]
  simp [LineRegs.major_setup_of_le, LineRegs.pointAt_setup_of_le, LineRegs.minorAt_of_minor_eq_zero hminor]

/-- Settles O34: nothing moves along x. -/
theorem verticalLineEvents : Obligations.VerticalLineEvents := by
  intro r x y0 y1 hy
  have hminor : (r.setup ⟨x, y0, x, y1⟩).minor = 0 := by simp [LineRegs.minor_setup_of_le r hy.le]
  rw [drawLine_points r _ fun hk => absurd hk (LineRegs.kind_ne_general (.inl hminor))]
  simp [LineRegs.major_setup_of_le r hy.le, LineRegs.pointAt_setup_of_le r hy.le,
    LineRegs.minorAt_of_minor_eq_zero hminor, hy]

/-- Settles O35: with equal deltas both coordinates move in every pass. -/
theorem diagonalLineEvents : Obligations.DiagonalLineEvents := by
  intro r x0 y0 x1 y1 hy hd
  have hdeltas : (x1 - x0).natAbs = (y1 - y0).toNat := by omega
  have hmajor : (r.setup ⟨x0, y0, x1, y1⟩).major = (y1 - y0).toNat := by
    simp [LineRegs.major_setup_of_le r hy.le, hdeltas]
  have hminor : (r.setup ⟨x0, y0, x1, y1⟩).minor = (r.setup ⟨x0, y0, x1, y1⟩).major := by
    simp [LineRegs.minor_setup_of_le r hy.le, hmajor, hdeltas]
  rw [drawLine_points r _ fun hk => absurd hk (LineRegs.kind_ne_general (.inr hminor)), hmajor]
  refine List.map_congr_left fun i hi => ?_
  have hle : i ≤ (r.setup ⟨x0, y0, x1, y1⟩).major := hmajor ▸ Nat.lt_succ_iff.mp (List.mem_range.mp hi)
  rw [LineRegs.minorAt_of_minor_eq_major hminor hle, LineRegs.pointAt_setup_of_le r hy.le, if_neg (by omega)]

/-- Settles O36: the last event of the closed form is the end point. -/
theorem generalLineEvents : Obligations.GeneralLineEvents := by
  intro r x0 y0 x1 y1 dx dy hy hx hdx hdy hne hdx' hdy' step x
  obtain rfl : dy = (y1 - y0).toNat := by omega
  subst hdx
  have hmajor : (r.setup ⟨x0, y0, x1, y1⟩).major = max (x1 - x0).natAbs (y1 - y0).toNat :=
    LineRegs.major_setup_of_le r hy.le
  have hstep : (r.setup ⟨x0, y0, x1, y1⟩).errorStep = step := by
    rw [LineRegs.errorStep_eq, hmajor, LineRegs.minor_setup_of_le r hy.le]
  have hend := LineRegs.pointAt_setup_major_minor r ⟨x0, y0, x1, y1⟩
  rw [drawLine_points r _ fun _ => by omega, List.range_succ, List.map_append, List.map_singleton]
  congr 1
  · rw [hmajor]
    refine List.map_congr_left fun i hi => ?_
    rw [LineRegs.minorAt, if_pos (hmajor ▸ List.mem_range.mp hi), hstep, LineRegs.pointAt_setup_of_le r hy.le]
  · rw [LineRegs.minorAt_major, hend, LineRegs.setup_of_le r hy.le]

/-- Settles O37: the carries of the passes are their moves along the minor axis. -/
theorem lineStepAndCarryCount : Obligations.LineStepAndCarryCount := by
  intro r hpos hlt hmax loaded passes carries
  obtain ⟨hlo, hhi⟩ := LineRegs.errorStep_bounds hpos hlt hmax
  have hcarries : carries = (r.major - 1) * r.errorStep / 65536 := by
    have hstep : 1 ≤ loaded.step.toNat := by rwa [LineRegs.toNat_step_load_general hhi]
    exact (loaded.countP_carry_walk hstep _).trans (LineRegs.minorAfter_load_general hhi _)
  exact ⟨hlo, hhi, LineRegs.walk_length _ _ _, hcarries, hcarries ▸ LineRegs.carries_bounds hpos hlt hmax⟩

/-- Settles O38: the exchange of end points keeps both deltas. -/
theorem lineEventCount : Obligations.LineEventCount := by
  intro r x0 y0 x1 y1
  rw [drawLine_points_length]
  simp only [LineRegs.major, LineRegs.setup, Segment.normalise]
  split_ifs <;> simp only <;> omega

/-- Settles O39: one unit along the major axis per event, and along the minor axis as the closed form allows. -/
theorem lineEventsAreMonotonic : Obligations.LineEventsAreMonotonic := by
  intro r x0 y0 x1 y1 k p q hy hdx hdy hp hq last
  have hmajor : (r.setup ⟨x0, y0, x1, y1⟩).major = _ := r.major_setup_of_le hy
  have hmax : (r.setup ⟨x0, y0, x1, y1⟩).major ≤ 65535 := by omega
  have hlast : last ↔ k + 1 = (r.setup ⟨x0, y0, x1, y1⟩).major := by
    simp only [last, drawLine_points_length]
    omega
  rw [drawLine_points r _ fun _ => hmax] at hp hq
  simp only [List.getElem?_map, Option.map_eq_some_iff, List.getElem?_eq_some_iff, List.getElem_range,
    List.length_range, r.pointAt_setup_of_le hy] at hp hq
  obtain ⟨_, ⟨-, rfl⟩, rfl⟩ := hp
  obtain ⟨_, ⟨hk, rfl⟩, rfl⟩ := hq
  obtain ⟨hle, hstill, hlim⟩ := LineRegs.minorAt_succ_bounds hmax (Nat.lt_of_succ_lt_succ hk)
  rw [r.minor_setup_of_le hy] at hstill hlim
  simp only [hlast, hmajor] at hk hlim ⊢
  by_cases hd : (x1 - x0).natAbs < (y1 - y0).toNat
  · simp only [if_pos hd]
    split_ifs <;> omega
  · simp only [if_neg hd]
    split_ifs <;> omega

/-- Settles O40: for different y the exchange of R61 gives both orders the same segment; for equal y the horizontal
line is walked from its other end. -/
theorem lineEndpointOrder : Obligations.LineEndpointOrder := by
  intro r r' x0 y0 x1 y1
  constructor
  · intro hne
    rw [drawLine_points_independent r r', drawLine_congr_normalise r' (Segment.normalise_swap hne)]
  · rintro rfl
    rw [horizontalLineEvents, horizontalLineEvents]
    refine List.ext_getElem (by simp; omega) fun i hi _ => ?_
    simp only [List.length_map, List.length_range] at hi
    simp only [List.getElem_map, List.getElem_range, List.getElem_reverse, List.length_map, List.length_range,
      Point.mk.injEq, and_true]
    split_ifs <;> omega

/-- Settles O30: LINE completes as every command does, with the write events of its plot events. -/
theorem lineRunsDrawLine : Obligations.LineRunsDrawLine := by
  refine ⟨fun x0 y0 x1 y1 c s => ?_, ?_, fun r => ?_⟩
  · obtain ⟨t, ht, hmem, hbuf, hretired⟩ := everyCommandCompletes (.line x0 y0 x1 y1 c) s
    exact ⟨t, ht, hbuf, hretired, hmem⟩
  · intro w f hopc
    exact decode_of_row (op := .line) hopc (and_iff_left trivial).symm
  · exact (horizontalLineEvents r 0 5 0).trans (by decide)

/-- Settles O31: the start point of a line is the first end point after the exchange. -/
theorem lineStartPointIsAlwaysPlotted : Obligations.LineStartPointIsAlwaysPlotted := by
  intro r x0 y0 x1 y1
  rw [drawLine_head]
  simp only [LineRegs.point, LineRegs.setup, Segment.normalise, gt_iff_lt]
  split_ifs <;> rfl

/-- Settles O32: a zero-length line is a horizontal one of length 0. -/
theorem zeroLengthLinePlotsOnePoint : Obligations.ZeroLengthLinePlotsOnePoint := by
  intro r x y
  simp [horizontalLineEvents r x x y]

end Sys2Proof.Machine

/-! PROOFS of the statements about 43_ellipse.md: first the recurrence of the stepping loop, the ranges of its registers
and the plot events of the two renderers, then the point sets of both in terms of the distances from the centre, then
the settled statements. -/

namespace Sys2Proof.Machine

/-! ## The steps of the loop (43_ellipse.md R74 to R77) -/

theorem EllipseRegs.project_h (e : EllipseRegs) : e.project.h = (e.ix + 8) / 64 := rfl

theorem EllipseRegs.project_i (e : EllipseRegs) : e.project.i = (e.iy + 8) / 64 := rfl

theorem EllipseRegs.project_j (e : EllipseRegs) : e.project.j = e.project.h * e.n / e.m := rfl

theorem EllipseRegs.project_k (e : EllipseRegs) : e.project.k = e.project.i * e.n / e.m := rfl

/-- What the loop keeps before every step holds of the registers from which any drawn step is projected. -/
theorem exists_project_of_mem_ellipseLoop {P : EllipseRegs → Prop}
    (hstep : ∀ q, P q → q.project.h < q.project.i → P q.project.remember.update) {b : Nat} {e p : EllipseRegs}
    {ps : List EllipseRegs} (h : ellipseLoop b e = some ps) (he : P e) (hp : p ∈ ps) : ∃ q, P q ∧ p = q.project := by
  induction b generalizing e ps with
  | zero => simp at h
  | succ b ih =>
    obtain ⟨_, ⟨⟩, ⟨-, rfl⟩ | ⟨hi, rest, hr, rfl⟩⟩ := ellipseLoop_cases h
    · exact ⟨e, he, List.mem_singleton.mp hp⟩
    · obtain rfl | hrest := List.mem_cons.mp hp
      · exact ⟨e, he, rfl⟩
      · exact ih hr (hstep e he hi) hrest

theorem ellipseLoop_head {b : Nat} {e : EllipseRegs} {ps : List EllipseRegs} (h : ellipseLoop b e = some ps) :
    ps.head? = some e.project := by
  obtain ⟨_, -, ⟨-, rfl⟩ | ⟨-, rest, -, rfl⟩⟩ := ellipseLoop_cases h
  · rfl
  · rfl

/-- A step follows another only if the other had not crossed, and from its update. -/
theorem ellipseLoop_next {b : Nat} {e p q : EllipseRegs} {ps : List EllipseRegs} (h : ellipseLoop b e = some ps)
    {k : Nat} (hp : ps[k]? = some p) (hq : ps[k + 1]? = some q) : p.h < p.i ∧ q = p.remember.update.project := by
  induction b generalizing e ps k with
  | zero => simp at h
  | succ b ih =>
    obtain ⟨_, ⟨⟩, ⟨-, rfl⟩ | ⟨hi, rest, hr, rfl⟩⟩ := ellipseLoop_cases h
    · simp at hq
    · rw [List.getElem?_cons_succ] at hq
      cases k with
      | zero =>
        obtain rfl := Option.some.inj hp
        rw [← List.head?_eq_getElem?, ellipseLoop_head hr] at hq
        exact ⟨hi, (Option.some.inj hq).symm⟩
      | succ k => exact ih hr hp hq

theorem ellipseLoop_last {b : Nat} {e : EllipseRegs} {ps : List EllipseRegs} (h : ellipseLoop b e = some ps) :
    ∃ p, ps.getLast? = some p ∧ p.i ≤ p.h := by
  induction b generalizing e ps with
  | zero => simp at h
  | succ b ih =>
    obtain ⟨_, ⟨⟩, ⟨hi, rfl⟩ | ⟨-, rest, hr, rfl⟩⟩ := ellipseLoop_cases h
    · exact ⟨_, rfl, hi⟩
    · obtain ⟨p, hlast, hp⟩ := ih hr
      exact ⟨p, by rw [List.getLast?_cons, hlast, Option.getD_some], hp⟩

/-- The gate compares the two tuples (43_ellipse.md R76). -/
theorem EllipseRegs.qualifies_eq (p : EllipseRegs) :
    p.qualifies = decide ((p.oh, p.oi, p.oj, p.ok) ≠ (some p.h, some p.i, some p.j, some p.k)) := by
  rw [Bool.eq_iff_iff]
  simp only [EllipseRegs.qualifies, Bool.or_eq_true, decide_eq_true_eq, ne_eq, Prod.mk.injEq, not_and_or, or_assoc]

/-- The registers are set up for an ellipse (43_ellipse.md R73). -/
structure EllipseRegs.SetFor (e : EllipseRegs) (cx cy : Int) (rx ry : Nat) : Prop where
  cx_eq : e.cx = cx
  cy_eq : e.cy = cy
  rx_eq : e.rx = rx
  ry_eq : e.ry = ry
  m_eq : e.m = max rx ry
  n_eq : e.n = min rx ry

theorem EllipseRegs.setFor_setup (e : EllipseRegs) (cx cy : Int) (rx ry : Nat) :
    (e.setup cx cy rx ry).SetFor cx cy rx ry := by
  obtain ⟨hm, hn, -⟩ := e.setup_fields cx cy rx ry
  exact ⟨rfl, rfl, rfl, rfl, hm, hn⟩

/-- The steps of an ellipse are drawn with its own operands. -/
theorem EllipseRegs.setFor_of_mem {b : Nat} {e p : EllipseRegs} {cx cy : Int} {rx ry : Nat} {ps : List EllipseRegs}
    (h : ellipseLoop b (e.setup cx cy rx ry) = some ps) (hp : p ∈ ps) : p.SetFor cx cy rx ry := by
  obtain ⟨q, ⟨hcx, hcy, hrx, hry, hm, hn⟩, rfl⟩ := exists_project_of_mem_ellipseLoop
    (P := fun q => q.SetFor cx cy rx ry) (fun _ ⟨hcx, hcy, hrx, hry, hm, hn⟩ _ => ⟨hcx, hcy, hrx, hry, hm, hn⟩)
    h (e.setFor_setup cx cy rx ry) hp
  exact ⟨hcx, hcy, hrx, hry, hm, hn⟩

/-! ## The ranges of the registers (43_ellipse.md R78 (c), R83) -/

/-- The invariant behind R78 (c): beside `BeforeStep`, the ranges of both variables, and a line above the arc they
follow. The line `ix + 4 iy = 272 m` passes through `(16 m, 64 m)`: from there on a step takes at least 16
from `iy` and adds at most 64 to `ix`, so it stays below. -/
structure EllipseRegs.InRange (e : EllipseRegs) : Prop extends e.BeforeStep where
  iy_nonneg : 0 ≤ e.iy
  ix_le : e.ix ≤ 64 * e.m
  first_or_later : e.ix = 0 ∨ 64 ≤ e.ix
  below_line : e.ix + 4 * e.iy ≤ 272 * e.m

theorem EllipseRegs.inRange_setup (e : EllipseRegs) (cx cy : Int) {rx ry : Nat} (h : 1 ≤ max rx ry) :
    (e.setup cx cy rx ry).InRange := by
  obtain ⟨hm, -, hix, hiy, -⟩ := e.setup_fields cx cy rx ry
  exact ⟨e.beforeStep_setup cx cy h, by omega, by omega, Or.inl hix, by omega⟩

/-- No step adds more than 64 to `ix`, and the first adds 64. -/
theorem EllipseRegs.BeforeStep.div_le {e : EllipseRegs} (h : e.BeforeStep) :
    e.iy / e.m ≤ 64 ∧ (e.ix = 0 → 0 ≤ e.iy → 64 ≤ e.iy / e.m) := by
  obtain ⟨hm, -, hiy, hsum⟩ := h
  exact ⟨Int.ediv_le_of_le_mul (by omega) hiy, fun h0 h1 => Int.le_ediv_of_mul_le (by omega) (by omega)⟩

/-- A step from `ix > 64 (m - 1)` would find `iy` at `64 m - 8` or more, above the line. -/
theorem EllipseRegs.InRange.step_ix_le {e : EllipseRegs} (h : e.InRange) (hi : e.project.h < e.project.i) :
    e.project.remember.update.ix ≤ 64 * e.m := by
  obtain ⟨hgain, -⟩ := h.div_le
  obtain ⟨⟨hm, hix, hiy, -⟩, -, -, hfirst, hline⟩ := h
  rw [e.project_h, e.project_i] at hi
  rw [e.step_ix]
  omega

theorem EllipseRegs.InRange.step {e : EllipseRegs} (h : e.InRange) (hi : e.project.h < e.project.i) :
    e.project.remember.update.InRange := by
  have hlt := EllipseRegs.ix_lt_iy hi
  have hnext := h.toBeforeStep.step hlt
  have hmax := h.step_ix_le hi
  obtain ⟨hgain, hgain0⟩ := h.div_le
  have hgain32 := h.le_div hlt
  have hx := e.step_ix
  have hy := e.step_iy
  obtain ⟨⟨hm, hix, hiy, hsum⟩, hiy0, -, hfirst, hline⟩ := h
  obtain ⟨-, -, -, -, hm', -⟩ := e.step_fixed
  have hloss0 : 0 ≤ e.project.remember.update.ix / e.m := Int.ediv_nonneg (by omega) (by omega)
  have hloss64 : e.project.remember.update.ix / e.m ≤ 64 := Int.ediv_le_of_le_mul (by omega) hmax
  refine ⟨hnext, by omega, by rwa [hm'], by omega, ?_⟩
  rw [hm']
  obtain hsmall | hlarge := lt_or_ge e.project.remember.update.ix (16 * e.m)
  · omega
  · have hloss16 : 16 ≤ e.project.remember.update.ix / e.m := Int.le_ediv_of_mul_le (by omega) hlarge
    omega

/-- What R83 says of one step. -/
structure EllipseRegs.Sized (p : EllipseRegs) (m n : Nat) : Prop where
  ix : 0 ≤ p.ix ∧ p.ix ≤ 64 * m
  iy : 0 ≤ p.iy ∧ p.iy ≤ 64 * m
  h : 0 ≤ p.h ∧ p.h ≤ m
  i : 0 ≤ p.i ∧ p.i ≤ m
  j : 0 ≤ p.j ∧ p.j ≤ n
  k : 0 ≤ p.k ∧ p.k ≤ n

/-- A projection on the major axis scales to one within the other radius. -/
theorem scaled_bounds {v : Int} {m n : Nat} (hm : 1 ≤ m) (hv : 0 ≤ v ∧ v ≤ m) : 0 ≤ v * n / m ∧ v * n / m ≤ n := by
  obtain ⟨hv0, hvm⟩ := hv
  refine ⟨Int.ediv_nonneg (by positivity) (by omega), Int.ediv_le_of_le_mul (by omega) ?_⟩
  rw [mul_comm]
  exact mul_le_mul_of_nonneg_left hvm (by omega)

theorem EllipseRegs.InRange.sized_project {q : EllipseRegs} (h : q.InRange) : q.project.Sized q.m q.n := by
  obtain ⟨⟨hm, hix, hiy, -⟩, hiy0, hixm, -, -⟩ := h
  have hh : 0 ≤ q.project.h ∧ q.project.h ≤ q.m := by rw [q.project_h]; omega
  have hi : 0 ≤ q.project.i ∧ q.project.i ≤ q.m := by rw [q.project_i]; omega
  exact ⟨⟨hix, hixm⟩, ⟨hiy0, hiy⟩, hh, hi, scaled_bounds hm hh, scaled_bounds hm hi⟩

theorem EllipseRegs.sized_of_mem {b : Nat} {e p : EllipseRegs} {cx cy : Int} {rx ry : Nat} {ps : List EllipseRegs}
    (hmax : 1 ≤ max rx ry) (h : ellipseLoop b (e.setup cx cy rx ry) = some ps) (hp : p ∈ ps) :
    p.Sized (max rx ry) (min rx ry) := by
  obtain ⟨-, -, -, -, hm, hn⟩ := EllipseRegs.setFor_of_mem h hp
  obtain ⟨q, hq, rfl⟩ := exists_project_of_mem_ellipseLoop (fun _ => EllipseRegs.InRange.step) h
    (e.inRange_setup cx cy hmax) hp
  exact hm ▸ hn ▸ hq.sized_project

/-- Both boundary pairs of a step lie within the radii: `h` and `i` run along the larger one. -/
theorem EllipseRegs.pair_bounds {p : EllipseRegs} {cx cy : Int} {rx ry : Nat} {b : BoundaryPair}
    (hset : p.SetFor cx cy rx ry) (hsize : p.Sized (max rx ry) (min rx ry)) (hb : b ∈ [p.pair1, p.pair2]) :
    0 ≤ b.w ∧ b.w ≤ rx ∧ 0 ≤ b.r ∧ b.r ≤ ry := by
  obtain ⟨-, -, hrx, hry, -, -⟩ := hset
  obtain ⟨-, -, hh, hi, hj, hk⟩ := hsize
  simp only [EllipseRegs.pair1, EllipseRegs.pair2, hrx, hry, List.mem_cons, List.not_mem_nil, or_false] at hb
  obtain hle | hlt := le_or_gt ry rx
  · simp only [if_pos hle] at hb
    rcases hb with rfl | rfl <;> simp only <;> omega
  · simp only [if_neg (not_le.mpr hlt)] at hb
    rcases hb with rfl | rfl <;> simp only <;> omega

/-! ## The plot events (43_ellipse.md R70 to R72, R80, R81) -/

/-- The points `cx - w, …, cx + w` of one row, left to right. -/
def centredRow (cx w y : Int) : List Point := (List.range (2 * w.toNat + 1)).map fun k : Nat => ⟨cx - w + k, y⟩

/-- The points `cy - h, …, cy + h` of one column. -/
def centredColumn (x cy h : Int) : List Point := (List.range (2 * h.toNat + 1)).map fun k : Nat => ⟨x, cy - h + k⟩

theorem mem_centredRow {cx w y : Int} {p : Point} (hw : 0 ≤ w) : p ∈ centredRow cx w y ↔ |p.x - cx| ≤ w ∧ p.y = y := by
  obtain ⟨px, py⟩ := p
  simp only [centredRow, List.mem_map, List.mem_range, Point.mk.injEq, abs_le]
  constructor
  · rintro ⟨k, hk, rfl, rfl⟩
    omega
  · rintro ⟨⟨hlo, hhi⟩, rfl⟩
    exact ⟨(px - cx + w).toNat, by omega, by omega, rfl⟩

theorem mem_centredColumn {x cy h : Int} {p : Point} (hh : 0 ≤ h) :
    p ∈ centredColumn x cy h ↔ p.x = x ∧ |p.y - cy| ≤ h := by
  obtain ⟨px, py⟩ := p
  simp only [centredColumn, List.mem_map, List.mem_range, Point.mk.injEq, abs_le]
  constructor
  · rintro ⟨k, hk, rfl, rfl⟩
    omega
  · rintro ⟨rfl, hlo, hhi⟩
    exact ⟨(py - cy + h).toNat, by omega, rfl, by omega⟩

theorem drawLine_centredRow (r : LineRegs) (cx y : Int) {w : Int} (hw : 0 ≤ w) :
    (drawLine r ⟨cx - w, y, cx + w, y⟩).points = centredRow cx w y := by
  have hlen : (cx + w - (cx - w)).natAbs = 2 * w.toNat := by omega
  rw [horizontalLineEvents, hlen]
  simp only [if_pos (show cx - w ≤ cx + w by omega), centredRow]

theorem drawLine_centredColumn (r : LineRegs) (x cy : Int) {h : Int} (hh : 0 < h) :
    (drawLine r ⟨x, cy - h, x, cy + h⟩).points = centredColumn x cy h := by
  have hlen : (cy + h - (cy - h)).toNat = 2 * h.toNat := by omega
  rw [verticalLineEvents _ _ _ _ (by omega), hlen, centredColumn]

theorem degeneratePoints_row (r : LineRegs) (cx cy : Int) (rx : Nat) :
    degeneratePoints r cx cy rx 0 = some (centredRow cx rx cy) := by
  rw [degeneratePoints, drawLine_centredRow _ _ _ (by omega)]
  obtain rfl | hx := Nat.eq_zero_or_pos rx
  · simp [centredRow]
  · rw [if_neg (by omega), if_neg (by omega), if_pos rfl]

theorem degeneratePoints_column (r : LineRegs) (cx cy : Int) {ry : Nat} (hy : 1 ≤ ry) :
    degeneratePoints r cx cy 0 ry = some (centredColumn cx cy ry) := by
  rw [degeneratePoints, if_neg (by omega), if_pos rfl, drawLine_centredColumn _ _ _ (by omega)]

theorem degeneratePoints_of_pos (r : LineRegs) (cx cy : Int) {rx ry : Nat} (hx : 1 ≤ rx) (hy : 1 ≤ ry) :
    degeneratePoints r cx cy rx ry = none := by
  rw [degeneratePoints, if_neg (by omega), if_neg (by omega), if_neg (by omega)]

theorem ellipsePoints_of_degenerate {r : LineRegs} {cx cy : Int} {rx ry : Nat} {ps : List Point}
    (h : degeneratePoints r cx cy rx ry = some ps) (e : EllipseRegs) : ellipsePoints r e cx cy rx ry = some ps := by
  simp only [ellipsePoints, h]

theorem fellipsePoints_of_degenerate {r : LineRegs} {cx cy : Int} {rx ry : Nat} {ps : List Point}
    (h : degeneratePoints r cx cy rx ry = some ps) (e : EllipseRegs) : fellipsePoints r e cx cy rx ry = some ps := by
  simp only [fellipsePoints, h]

/-- Each line finds other registers, and none reads them. -/
theorem drawLines_eq_flatMap (r : LineRegs) (gs : List Segment) :
    drawLines r gs = gs.flatMap fun g => (drawLine r g).points := by
  induction gs with
  | nil => rfl
  | cons g gs ih => rw [drawLines_cons, drawLines_independent _ r, ih, List.flatMap_cons]

theorem drawLines_flatMap {α : Type} (r : LineRegs) (l : List α) (f : α → List Segment) :
    drawLines r (l.flatMap f) = l.flatMap fun x => drawLines r (f x) := by
  simp only [drawLines_eq_flatMap, List.flatMap_assoc]

/-- The two rows of a pair, `cy + r` first. -/
def BoundaryPair.rows (b : BoundaryPair) (cx cy : Int) : List Point :=
  centredRow cx b.w (cy + b.r) ++ centredRow cx b.w (cy - b.r)

theorem BoundaryPair.drawLines_lines (r : LineRegs) {b : BoundaryPair} (hw : 0 ≤ b.w) (cx cy : Int) :
    drawLines r (b.lines cx cy) = b.rows cx cy := by
  rw [BoundaryPair.lines, drawLines_cons, drawLines_cons, drawLines_nil, List.append_nil,
    drawLine_centredRow _ _ _ hw, drawLine_centredRow _ _ _ hw, BoundaryPair.rows]

theorem EllipseRegs.spans_nonneg {p : EllipseRegs} (h : ∀ b ∈ [p.pair1, p.pair2], 0 ≤ b.w ∧ 0 ≤ b.r) :
    ∀ b ∈ p.spans, 0 ≤ b.w ∧ 0 ≤ b.r := by
  unfold EllipseRegs.spans
  split_ifs with hr
  · exact h
  · obtain ⟨hw1, hr1⟩ := h p.pair1 List.mem_cons_self
    intro b hb
    obtain rfl := List.mem_singleton.mp hb
    exact ⟨le_max_of_le_left hw1, hr1⟩

section GeneralEvents

variable {e : EllipseRegs} {cx cy : Int} {rx ry : Nat} {ps : List EllipseRegs}

theorem ellipseSteps_of_loop (h : ellipseLoop (ellipseBudget rx ry) (e.setup cx cy rx ry) = some ps) :
    ellipseSteps e cx cy rx ry = some (ps.filter EllipseRegs.qualifies) := by
  rw [ellipseSteps, h, Option.map_some]

variable (hx : 1 ≤ rx) (hy : 1 ≤ ry) (h : ellipseLoop (ellipseBudget rx ry) (e.setup cx cy rx ry) = some ps)
include hx hy h

theorem ellipsePoints_of_loop (r : LineRegs) :
    ellipsePoints r e cx cy rx ry = some ((ps.filter EllipseRegs.qualifies).flatMap EllipseRegs.outline) := by
  simp only [ellipsePoints, degeneratePoints_of_pos r cx cy hx hy, ellipseSteps_of_loop h, Option.map_some]

theorem pair_bounds_of_mem {p : EllipseRegs} (hp : p ∈ ps) {b : BoundaryPair} (hb : b ∈ [p.pair1, p.pair2]) :
    0 ≤ b.w ∧ b.w ≤ rx ∧ 0 ≤ b.r ∧ b.r ≤ ry :=
  EllipseRegs.pair_bounds (EllipseRegs.setFor_of_mem h hp) (EllipseRegs.sized_of_mem (by omega) h hp) hb

theorem span_nonneg_of_mem {p : EllipseRegs} (hp : p ∈ ps) : ∀ b ∈ p.spans, 0 ≤ b.w ∧ 0 ≤ b.r := by
  refine EllipseRegs.spans_nonneg fun b hb => ?_
  obtain ⟨hw, -, hr, -⟩ := pair_bounds_of_mem hx hy h hp hb
  exact ⟨hw, hr⟩

theorem fellipsePoints_of_loop (r : LineRegs) :
    fellipsePoints r e cx cy rx ry =
      some ((ps.filter EllipseRegs.qualifies).flatMap fun p => p.spans.flatMap fun b => b.rows cx cy) := by
  simp only [fellipsePoints, degeneratePoints_of_pos r cx cy hx hy, ellipseSteps_of_loop h, Option.map_some,
    drawLines_flatMap]
  refine congrArg some (List.flatMap_congr fun p hp => ?_)
  have hmem := (List.mem_filter.mp hp).1
  obtain ⟨hcx, hcy, -⟩ := EllipseRegs.setFor_of_mem h hmem
  rw [EllipseRegs.fillLines, drawLines_flatMap, hcx, hcy]
  exact List.flatMap_congr fun b hb =>
    BoundaryPair.drawLines_lines r (span_nonneg_of_mem hx hy h hmem b hb).1 cx cy

end GeneralEvents

/-! ## The point sets as sets of distances from the centre (43_ellipse.md R82) -/

/-- The points of `ps` are those whose distances from the centre along x and along y are related by `A`. -/
def PointsAt (ps : List Point) (cx cy : Int) (A : Int → Int → Prop) : Prop :=
  ∀ p : Point, p ∈ ps ↔ A |p.x - cx| |p.y - cy|

/-- The distances lie within the radii and reach both. -/
structure ReachesRadii (A : Int → Int → Prop) (rx ry : Nat) : Prop where
  le : ∀ w d, A w d → w ≤ rx ∧ d ≤ ry
  widest : ∃ d, 0 ≤ d ∧ A rx d
  highest : ∃ w, 0 ≤ w ∧ A w ry

/-- Each row filled up to its boundary. -/
def Filled (A : Int → Int → Prop) (w d : Int) : Prop := ∃ v, w ≤ v ∧ A v d

theorem filled_of_self {A : Int → Int → Prop} {w d : Int} (h : A w d) : Filled A w d := ⟨w, le_rfl, h⟩

theorem ReachesRadii.filled {A : Int → Int → Prop} {rx ry : Nat} (h : ReachesRadii A rx ry) :
    ReachesRadii (Filled A) rx ry := by
  obtain ⟨hle, ⟨d, hd, hwide⟩, w, hw, hhigh⟩ := h
  refine ⟨?_, ⟨d, hd, filled_of_self hwide⟩, w, hw, filled_of_self hhigh⟩
  rintro w d ⟨v, hv, hA⟩
  obtain ⟨hvx, hdy⟩ := hle v d hA
  exact ⟨hv.trans hvx, hdy⟩

theorem PointsAt.mem_reflected {ps : List Point} {cx cy : Int} {A : Int → Int → Prop} (h : PointsAt ps cx cy A)
    {p : Point} (hp : p ∈ ps) :
    (⟨2 * cx - p.x, p.y⟩ : Point) ∈ ps ∧ (⟨p.x, 2 * cy - p.y⟩ : Point) ∈ ps := by
  have hx : |2 * cx - p.x - cx| = |p.x - cx| := by rw [abs_sub_comm p.x]; congr 1; ring
  have hy : |2 * cy - p.y - cy| = |p.y - cy| := by rw [abs_sub_comm p.y]; congr 1; ring
  have hA := (h p).mp hp
  exact ⟨(h _).mpr (by rwa [hx]), (h _).mpr (by rwa [hy])⟩

theorem PointsAt.extremes {ps : List Point} {cx cy : Int} {A : Int → Int → Prop} (h : PointsAt ps cx cy A)
    {rx ry : Nat} (hA : ReachesRadii A rx ry) :
    (∀ p ∈ ps, cx - rx ≤ p.x ∧ p.x ≤ cx + rx ∧ cy - ry ≤ p.y ∧ p.y ≤ cy + ry) ∧
      (∃ p ∈ ps, p.x = cx - rx) ∧ (∃ p ∈ ps, p.x = cx + rx) ∧ (∃ p ∈ ps, p.y = cy - ry) ∧ ∃ p ∈ ps, p.y = cy + ry := by
  obtain ⟨hle, ⟨d, hd, hwide⟩, w, hw, hhigh⟩ := hA
  have hright : (⟨cx + rx, cy + d⟩ : Point) ∈ ps := (h _).mpr (by simpa [abs_of_nonneg hd] using hwide)
  have hlow : (⟨cx + w, cy + ry⟩ : Point) ∈ ps := (h _).mpr (by simpa [abs_of_nonneg hw] using hhigh)
  refine ⟨fun p hp => ?_, ⟨_, (h.mem_reflected hright).1, by ring⟩, ⟨_, hright, rfl⟩,
    ⟨_, (h.mem_reflected hlow).2, by ring⟩, ⟨_, hlow, rfl⟩⟩
  obtain ⟨hpx, hpy⟩ := hle _ _ ((h p).mp hp)
  rw [abs_le] at hpx hpy
  omega

/-- The four points of a pair (43_ellipse.md R79, R80). -/
theorem BoundaryPair.mem_outline {b : BoundaryPair} {cx cy : Int} {p : Point} (hw : 0 ≤ b.w) (hr : 0 ≤ b.r) :
    p ∈ b.outline cx cy ↔ |p.x - cx| = b.w ∧ |p.y - cy| = b.r := by
  obtain ⟨px, py⟩ := p
  simp only [BoundaryPair.outline, List.mem_cons, List.not_mem_nil, or_false, Point.mk.injEq, abs_eq hw, abs_eq hr]
  omega

/-- The two rows of a pair (43_ellipse.md R81). -/
theorem BoundaryPair.mem_rows {b : BoundaryPair} {cx cy : Int} {p : Point} (hw : 0 ≤ b.w) (hr : 0 ≤ b.r) :
    p ∈ b.rows cx cy ↔ |p.x - cx| ≤ b.w ∧ |p.y - cy| = b.r := by
  rw [BoundaryPair.rows, List.mem_append, mem_centredRow hw, mem_centredRow hw, ← and_or_left, abs_eq hr]
  exact and_congr_right fun _ => or_congr (by omega) (by omega)

/-- Drawing the wider of two equal rows loses nothing (43_ellipse.md R81; 90_conflicts.md C5). -/
theorem EllipseRegs.exists_span_iff (p : EllipseRegs) (w d : Int) :
    (∃ b ∈ p.spans, w ≤ b.w ∧ d = b.r) ↔ ∃ b ∈ [p.pair1, p.pair2], w ≤ b.w ∧ d = b.r := by
  unfold EllipseRegs.spans
  split_ifs with hr
  · rfl
  · simp only [List.mem_cons, List.not_mem_nil, or_false, exists_eq_left, exists_eq_or_imp, le_max_iff]
    rw [← not_ne_iff.mp hr, ← or_and_right]

/-- A step of `steps` has a boundary pair of half-width `w` and row offset `d`. -/
def OnBoundary (steps : List EllipseRegs) (w d : Int) : Prop :=
  ∃ p ∈ steps, ∃ b ∈ [p.pair1, p.pair2], w = b.w ∧ d = b.r

/-- The first step always qualifies, and its pairs are the ends of both axes. -/
theorem EllipseRegs.first_step (e : EllipseRegs) (cx cy : Int) {rx ry : Nat} (h : 1 ≤ max rx ry) :
    (e.setup cx cy rx ry).project.qualifies = true ∧
      ((⟨0, ry⟩ : BoundaryPair) ∈ [(e.setup cx cy rx ry).project.pair1, (e.setup cx cy rx ry).project.pair2]) ∧
      (⟨rx, 0⟩ : BoundaryPair) ∈ [(e.setup cx cy rx ry).project.pair1, (e.setup cx cy rx ry).project.pair2] := by
  obtain ⟨hm, hn, hix, hiy, hoh⟩ := e.setup_fields cx cy rx ry
  have hh : (e.setup cx cy rx ry).project.h = 0 := by rw [EllipseRegs.project_h, hix]; rfl
  have hi : (e.setup cx cy rx ry).project.i = max rx ry := by rw [EllipseRegs.project_i, hiy]; omega
  have hj : (e.setup cx cy rx ry).project.j = 0 := by rw [EllipseRegs.project_j, hh]; simp
  have hk : (e.setup cx cy rx ry).project.k = min rx ry := by
    rw [EllipseRegs.project_k, hi, hm, hn, Int.mul_ediv_cancel_left _ (by omega)]
  have hrx : (e.setup cx cy rx ry).project.rx = rx := rfl
  have hry : (e.setup cx cy rx ry).project.ry = ry := rfl
  refine ⟨?_, ?_⟩
  · have hnone : (e.setup cx cy rx ry).project.oh = none := hoh
    simp [EllipseRegs.qualifies, hnone]
  · simp only [EllipseRegs.pair1, EllipseRegs.pair2, hrx, hry, hh, hi, hj, hk]
    obtain hle | hlt := le_or_gt ry rx
    · simp [hle]
    · simp [not_le.mpr hlt, hlt.le]

section GeneralPointSets

variable {e : EllipseRegs} {cx cy : Int} {rx ry : Nat} {ps : List EllipseRegs} (hx : 1 ≤ rx) (hy : 1 ≤ ry)
  (h : ellipseLoop (ellipseBudget rx ry) (e.setup cx cy rx ry) = some ps)
include hx hy h

theorem reachesRadii_onBoundary : ReachesRadii (OnBoundary (ps.filter EllipseRegs.qualifies)) rx ry := by
  obtain ⟨hq, hhigh, hwide⟩ := e.first_step cx cy (rx := rx) (ry := ry) (by omega)
  have hfirst := List.mem_filter.mpr ⟨List.mem_of_mem_head? (ellipseLoop_head h), hq⟩
  refine ⟨?_, ⟨0, le_rfl, _, hfirst, _, hwide, rfl, rfl⟩, ⟨0, le_rfl, _, hfirst, _, hhigh, rfl, rfl⟩⟩
  rintro w d ⟨p, hp, b, hb, rfl, rfl⟩
  obtain ⟨-, hw, -, hr⟩ := pair_bounds_of_mem hx hy h (List.mem_filter.mp hp).1 hb
  exact ⟨hw, hr⟩

theorem pointsAt_outline :
    PointsAt ((ps.filter EllipseRegs.qualifies).flatMap EllipseRegs.outline) cx cy
      (OnBoundary (ps.filter EllipseRegs.qualifies)) := by
  intro p
  rw [List.mem_flatMap]
  refine exists_congr fun q => and_congr_right fun hq => ?_
  have hmem := (List.mem_filter.mp hq).1
  obtain ⟨hcx, hcy, -⟩ := EllipseRegs.setFor_of_mem h hmem
  have hpairs : p ∈ q.outline ↔ ∃ b ∈ [q.pair1, q.pair2], p ∈ b.outline cx cy := by
    simp [EllipseRegs.outline, hcx, hcy]
  rw [hpairs]
  refine exists_congr fun b => and_congr_right fun hb => ?_
  obtain ⟨hw, -, hr, -⟩ := pair_bounds_of_mem hx hy h hmem hb
  exact BoundaryPair.mem_outline hw hr

theorem pointsAt_fill :
    PointsAt ((ps.filter EllipseRegs.qualifies).flatMap fun p => p.spans.flatMap fun b => b.rows cx cy) cx cy
      (Filled (OnBoundary (ps.filter EllipseRegs.qualifies))) := by
  intro p
  have hrows : ∀ q ∈ ps.filter EllipseRegs.qualifies, (p ∈ q.spans.flatMap fun b => b.rows cx cy) ↔
      ∃ b ∈ [q.pair1, q.pair2], |p.x - cx| ≤ b.w ∧ |p.y - cy| = b.r := by
    intro q hq
    rw [← q.exists_span_iff, List.mem_flatMap]
    refine exists_congr fun b => and_congr_right fun hb => ?_
    obtain ⟨hw, hr⟩ := span_nonneg_of_mem hx hy h (List.mem_filter.mp hq).1 b hb
    exact BoundaryPair.mem_rows hw hr
  rw [List.mem_flatMap]
  constructor
  · rintro ⟨q, hq, hp⟩
    obtain ⟨b, hb, hw, hr⟩ := (hrows q hq).mp hp
    exact ⟨b.w, hw, q, hq, b, hb, rfl, hr⟩
  · rintro ⟨_, hw, q, hq, b, hb, rfl, hr⟩
    exact ⟨q, hq, (hrows q hq).mpr ⟨b, hb, hw, hr⟩⟩

end GeneralPointSets

/-- The distances of a degenerate ellipse: one of the radii is 0. -/
def InBox (rx ry : Nat) (w d : Int) : Prop := w ≤ rx ∧ d ≤ ry

theorem reachesRadii_inBox (rx ry : Nat) : ReachesRadii (InBox rx ry) rx ry :=
  ⟨fun _ _ h => h, ⟨0, le_rfl, le_rfl, by omega⟩, ⟨0, le_rfl, by omega, le_rfl⟩⟩

theorem filled_inBox (rx ry : Nat) : Filled (InBox rx ry) = InBox rx ry := by
  funext w d
  exact propext ⟨fun ⟨_, hv, hle, hd⟩ => ⟨hv.trans hle, hd⟩, filled_of_self⟩

theorem abs_sub_le_zero_iff {a b : Int} : |a - b| ≤ (0 : Nat) ↔ a = b := by
  rw [Nat.cast_zero, abs_nonpos_iff, sub_eq_zero]

theorem pointsAt_centredRow (cx cy : Int) (rx : Nat) : PointsAt (centredRow cx rx cy) cx cy (InBox rx 0) := by
  intro p
  rw [mem_centredRow (by omega), InBox, abs_sub_le_zero_iff]

theorem pointsAt_centredColumn (cx cy : Int) (ry : Nat) : PointsAt (centredColumn cx cy ry) cx cy (InBox 0 ry) := by
  intro p
  rw [mem_centredColumn (by omega), InBox, abs_sub_le_zero_iff]

/-- Outline and fill of any ellipse: one boundary that reaches both radii, and the boundary filled. -/
theorem exists_boundary (r : LineRegs) (e : EllipseRegs) (cx cy : Int) (rx ry : Nat) :
    ∃ outline fill A, ellipsePoints r e cx cy rx ry = some outline ∧ fellipsePoints r e cx cy rx ry = some fill ∧
      ReachesRadii A rx ry ∧ PointsAt outline cx cy A ∧ PointsAt fill cx cy (Filled A) := by
  obtain rfl | hy := Nat.eq_zero_or_pos ry
  · have hd := degeneratePoints_row r cx cy rx
    exact ⟨_, _, InBox rx 0, ellipsePoints_of_degenerate hd e, fellipsePoints_of_degenerate hd e,
      reachesRadii_inBox _ _, pointsAt_centredRow _ _ _, (filled_inBox _ _).symm ▸ pointsAt_centredRow _ _ _⟩
  obtain rfl | hx := Nat.eq_zero_or_pos rx
  · have hd := degeneratePoints_column r cx cy hy
    exact ⟨_, _, InBox 0 ry, ellipsePoints_of_degenerate hd e, fellipsePoints_of_degenerate hd e,
      reachesRadii_inBox _ _, pointsAt_centredColumn _ _ _, (filled_inBox _ _).symm ▸ pointsAt_centredColumn _ _ _⟩
  · obtain ⟨ps, h⟩ := exists_ellipseLoop_budget e cx cy (rx := rx) (ry := ry) (by omega)
    exact ⟨_, _, _, ellipsePoints_of_loop hx hy h r, fellipsePoints_of_loop hx hy h r,
      reachesRadii_onBoundary hx hy h, pointsAt_outline hx hy h, pointsAt_fill hx hy h⟩

/-- The points of an outline or of a fill, by their distances from the centre. -/
theorem exists_pointsAt {r : LineRegs} {e : EllipseRegs} {cx cy : Int} {rx ry : Nat} {ps : List Point}
    (h : ellipsePoints r e cx cy rx ry = some ps ∨ fellipsePoints r e cx cy rx ry = some ps) :
    ∃ A, ReachesRadii A rx ry ∧ PointsAt ps cx cy A := by
  obtain ⟨outline, fill, A, houtline, hfill, hA, hmem, hmem'⟩ := exists_boundary r e cx cy rx ry
  rcases h with h | h
  · obtain rfl := Option.some.inj (houtline.symm.trans h)
    exact ⟨A, hA, hmem⟩
  · obtain rfl := Option.some.inj (hfill.symm.trans h)
    exact ⟨Filled A, hA.filled, hmem'⟩

/-! ## The statements -/

/-- Settles O41: a zero radius leaves one row or one column. -/
theorem degenerateEllipseEvents : Obligations.DegenerateEllipseEvents := by
  intro r e cx cy n
  have hpoint : degeneratePoints r cx cy 0 0 = some [⟨cx, cy⟩] := rfl
  refine ⟨ellipsePoints_of_degenerate hpoint e, fellipsePoints_of_degenerate hpoint e, fun hn => ?_⟩
  have hcolumn := degeneratePoints_column r cx cy (Nat.pos_of_ne_zero hn)
  have hrow := degeneratePoints_row r cx cy n
  exact ⟨ellipsePoints_of_degenerate hcolumn e, fellipsePoints_of_degenerate hcolumn e,
    ellipsePoints_of_degenerate hrow e, fellipsePoints_of_degenerate hrow e⟩

/-- Settles O42: the first step is projected from the setup, each later one from the update of the one before it. -/
theorem ellipseStepsFollowTheRecurrence : Obligations.EllipseStepsFollowTheRecurrence := by
  intro b e cx cy rx ry ps h m n
  obtain ⟨-, -, hix, hiy, hoh⟩ := e.setup_fields cx cy rx ry
  have hmn : ∀ p ∈ ps, (p.m : Int) = m ∧ (p.n : Int) = n := by
    intro p hp
    obtain ⟨-, -, -, -, hm, hn⟩ := EllipseRegs.setFor_of_mem h hp
    exact ⟨by rw [hm, Nat.cast_max], by rw [hn, Nat.cast_min]⟩
  refine ⟨⟨_, ellipseLoop_head h, hix, ?_, hoh, rfl, rfl, rfl⟩, fun p hp => ?_, fun k p q hp hq => ?_,
    ellipseLoop_last h⟩
  · exact hiy.trans (by rw [Nat.cast_max])
  · obtain ⟨hm, hn⟩ := hmn p hp
    obtain ⟨q, -, rfl⟩ := exists_project_of_mem_ellipseLoop (P := fun _ => True) (fun _ _ _ => trivial) h trivial hp
    exact ⟨rfl, rfl, hm ▸ hn ▸ rfl, hm ▸ hn ▸ rfl⟩
  · obtain ⟨hi, rfl⟩ := ellipseLoop_next h hp hq
    obtain ⟨hm, -⟩ := hmn p (List.mem_of_getElem? hp)
    exact ⟨hi, hm ▸ rfl, hm ▸ rfl, rfl, rfl, rfl, rfl⟩

/-- Settles O43: the loop ends within the budget, and the invariant keeps both angles from falling below 0. -/
theorem ellipseLoopEnds : Obligations.EllipseLoopEnds := by
  intro e cx cy rx ry hmax
  obtain ⟨ps, h⟩ := exists_ellipseLoop_budget e cx cy hmax
  refine ⟨ps, fun b hb => ?_, fun p hp => ?_⟩
  · obtain ⟨k, rfl⟩ := Nat.exists_eq_add_of_le hb
    exact ellipseLoop_mono h k
  · have hsize := EllipseRegs.sized_of_mem hmax h hp
    exact ⟨hsize.ix.1, hsize.iy.1⟩

/-- Settles O44: by the invariant of the loop and the bounds it gives the projections. -/
theorem ellipseRegistersStayInRange : Obligations.EllipseRegistersStayInRange := by
  intro b e cx cy rx ry ps hmax h p hp
  obtain ⟨⟨hix, hix'⟩, ⟨hiy, hiy'⟩, ⟨hh, hh'⟩, ⟨hi, hi'⟩, ⟨hj, hj'⟩, hk, hk'⟩ := EllipseRegs.sized_of_mem hmax h hp
  exact ⟨hix, hix', hiy, hiy', hh, hh', hi, hi', hj, hj', hk, hk'⟩

/-- Settles O45: the eight points of a step, with the pairs of its branch written out. -/
theorem ellipseOutlineEvents : Obligations.EllipseOutlineEvents := by
  intro r e cx cy rx ry hx hy
  obtain ⟨ps, h⟩ := exists_ellipseLoop_budget e cx cy (rx := rx) (ry := ry) (by omega)
  refine ⟨ps, h, ?_⟩
  intro changed four
  rw [ellipsePoints_of_loop hx hy h, show EllipseRegs.qualifies = changed from funext EllipseRegs.qualifies_eq]
  refine congrArg some (List.flatMap_congr fun p hp => ?_)
  obtain ⟨hcx, hcy, hrx, hry, -, -⟩ := EllipseRegs.setFor_of_mem h (List.mem_filter.mp hp).1
  rw [EllipseRegs.outline, EllipseRegs.pair1, EllipseRegs.pair2, hcx, hcy, hrx, hry]
  split_ifs <;> rfl

/-- Settles O46: the spans of a step, with the pairs of its branch written out. -/
theorem fellipseSpanEvents : Obligations.FellipseSpanEvents := by
  intro r e cx cy rx ry hx hy
  obtain ⟨ps, h⟩ := exists_ellipseLoop_budget e cx cy (rx := rx) (ry := ry) (by omega)
  refine ⟨ps, h, ?_⟩
  intro changed row span both
  have hrow : row = centredRow cx := by
    funext w y
    simp only [row, centredRow, bind_pure_comp, List.map_eq_map, List.map_map, Function.comp_def]
  have hspan : ∀ b : BoundaryPair, b.rows cx cy = span b.w b.r := fun b => by rw [BoundaryPair.rows, ← hrow]
  rw [fellipsePoints_of_loop hx hy h, show EllipseRegs.qualifies = changed from funext EllipseRegs.qualifies_eq]
  refine congrArg some (List.flatMap_congr fun p hp => ?_)
  obtain ⟨-, -, hrx, hry, -, -⟩ := EllipseRegs.setFor_of_mem h (List.mem_filter.mp hp).1
  have hboth : (p.spans.flatMap fun b => b.rows cx cy) = both p.pair1.w p.pair1.r p.pair2.w p.pair2.r := by
    simp only [EllipseRegs.spans, both, hspan]
    split_ifs <;> simp only [List.flatMap_cons, List.flatMap_nil, List.append_nil]
  rw [hboth, EllipseRegs.pair1, EllipseRegs.pair2, hrx, hry]
  split_ifs <;> rfl

/-- Settles O47: a boundary point lies in its own row, filled; no register reaches the points. -/
theorem fillContainsTheOutline : Obligations.FillContainsTheOutline := by
  intro r r' e e' cx cy rx ry
  obtain ⟨outline, fill, A, houtline, hfill, -, hmem, hmem'⟩ := exists_boundary r e cx cy rx ry
  refine ⟨outline, fill, houtline, (fellipsePoints_independent r' r e' e cx cy rx ry).trans hfill, fun p hp => ?_⟩
  exact (hmem' p).mpr (filled_of_self ((hmem p).mp hp))

/-- Settles O48: a reflection keeps both distances from the centre. -/
theorem ellipsePointSetsAreSymmetric : Obligations.EllipsePointSetsAreSymmetric := by
  intro r e cx cy rx ry ps h p hp
  obtain ⟨A, -, hmem⟩ := exists_pointsAt h
  exact hmem.mem_reflected hp

/-- Settles O49: the distances lie within the radii, and the first step takes both. -/
theorem ellipseReachesItsExtremes : Obligations.EllipseReachesItsExtremes := by
  intro r e cx cy rx ry ps h
  obtain ⟨A, hA, hmem⟩ := exists_pointsAt h
  exact hmem.extremes hA

/-- Settles O50: both commands complete as every command does, and their plot events exist. -/
theorem ellipseCommandsComplete : Obligations.EllipseCommandsComplete := by
  constructor
  · intro cx cy rx ry c s
    obtain ⟨outline, fill, -, houtline, hfill, -⟩ := exists_boundary s.line s.ell cx cy rx ry
    obtain ⟨t, ht, hmem, hbuf, hretired⟩ := everyCommandCompletes (.ellipse cx cy rx ry c) s
    obtain ⟨u, hu, hmem', hbuf', hretired'⟩ := everyCommandCompletes (.fellipse cx cy rx ry c) s
    simp only [commandWrites, houtline, hfill, Option.getD_some] at hmem hmem'
    exact ⟨⟨t, outline, ht, houtline, hbuf, hretired, hmem⟩, u, fill, hu, hfill, hbuf', hretired', hmem'⟩
  · intro w f
    exact ⟨fun hopc => decode_of_row (op := .ellipse) hopc (and_iff_left trivial).symm,
      fun hopc => decode_of_row (op := .fellipse) hopc (and_iff_left trivial).symm⟩

end Sys2Proof.Machine

/-! PROOFS of the statements about 60_exceptions.md and of NoStepEverStops: first which words decode answers with which
fault, and what the engine's move is after a fault and at one, then the settled statements. -/

namespace Sys2Proof

/-! ## The words that fault (60_exceptions.md R101, R102) -/

theorem opcodeOf_eq_none_iff {b : BitVec 8} : opcodeOf b = none ↔ ¬∃ op : Opcode, b = op.code := by
  simp only [Option.eq_none_iff_forall_ne_some, ne_eq, opcodeOf_eq_some_iff, not_exists]

/-- The `OPC` values of the seven rows (30_encoding.md R32). -/
theorem exists_eq_code_iff {b : BitVec 8} :
    (∃ op : Opcode, b = op.code) ↔ b = 0x01#8 ∨ b = 0x02#8 ∨ b = 0x03#8 ∨ b = 0x10#8 ∨ b = 0x11#8 ∨ b = 0x12#8 ∨
      b = 0x13#8 := by
  constructor
  · rintro ⟨op, rfl⟩
    cases op <;> decide
  · rintro (h | h | h | h | h | h | h)
    exacts [⟨.setbase, h⟩, ⟨.setgeom, h⟩, ⟨.clear, h⟩, ⟨.plot, h⟩, ⟨.line, h⟩, ⟨.ellipse, h⟩, ⟨.fellipse, h⟩]

theorem decode_eq_illegalOpcode_iff {w : CommandWord} :
    decode w = .error .illegalOpcode ↔ ¬∃ op : Opcode, (CommandFields.ofWord w).opc = op.code := by
  rw [← opcodeOf_eq_none_iff]
  unfold decode
  split
  · next h => simp [h]
  · next op h => split_ifs <;> simp [h]

/-- RESERVED_NONZERO is what `decode_of_row` leaves: a row's opcode with a must-be-zero bit at 1. -/
theorem decode_eq_reservedNonzero_iff {w : CommandWord} :
    decode w = .error .reservedNonzero ↔ ∃ op : Opcode, (CommandFields.ofWord w).opc = op.code ∧
      ¬((CommandFields.ofWord w).rsv = 0 ∧ CommandFields.operandsClean op (CommandFields.ofWord w)) := by
  classical
  constructor
  · intro h
    obtain ⟨op, hopc⟩ : ∃ op : Opcode, (CommandFields.ofWord w).opc = op.code := by
      by_contra hnone
      simp [decode_eq_illegalOpcode_iff.mpr hnone] at h
    refine ⟨op, hopc, fun hclean => ?_⟩
    have hok := decode_of_row hopc Iff.rfl
    rw [if_pos hclean, h] at hok
    cases hok
  · rintro ⟨op, hopc, hdirty⟩
    simpa only [if_neg hdirty] using decode_of_row hopc Iff.rfl

/-- Some bit is 1 that the fields' row wants zero: the lists of 60_exceptions.md R102, read by the value of `OPC`. -/
def CommandFields.Dirty (f : CommandFields) : Prop :=
  f.rsv ≠ 0 ∨
    (f.opc = 0x01#8 ∧ (f.a2 ≠ 0 ∨ f.a3 ≠ 0 ∨ f.c ≠ 0)) ∨
    (f.opc = 0x02#8 ∧ f.c.extractLsb' 1 15 ≠ 0) ∨
    (f.opc = 0x03#8 ∧ (f.a0 ≠ 0 ∨ f.a1 ≠ 0 ∨ f.a2 ≠ 0 ∨ f.a3 ≠ 0 ∨ f.c ≠ 0)) ∨
    (f.opc = 0x10#8 ∧ (f.a2 ≠ 0 ∨ f.a3 ≠ 0))

/-- With the opcode of a row only that row's list speaks. -/
theorem CommandFields.dirty_iff {f : CommandFields} {op : Opcode} (hopc : f.opc = op.code) :
    f.Dirty ↔ ¬(f.rsv = 0 ∧ CommandFields.operandsClean op f) := by
  rw [Dirty, not_and_or, hopc]
  refine or_congr_right ?_
  cases op with
  | setbase | plot => simp [operandsClean, Opcode.code, imp_iff_not_or]
  | setgeom => rw [operandsClean, ← depth_operand_clean_iff]; simp [Opcode.code]
  | clear => simp [operandsClean, Opcode.code, imp_iff_not_or, or_comm, or_left_comm]
  | line | ellipse | fellipse => simp [operandsClean, Opcode.code]

theorem decode_eq_reservedNonzero_iff_dirty {w : CommandWord} :
    decode w = .error .reservedNonzero ↔
      (∃ op : Opcode, (CommandFields.ofWord w).opc = op.code) ∧ (CommandFields.ofWord w).Dirty := by
  rw [decode_eq_reservedNonzero_iff, ← exists_and_right]
  exact exists_congr fun op => and_congr_right fun hopc => (CommandFields.dirty_iff hopc).symm

end Sys2Proof

namespace Sys2Proof.Machine

/-! ## The engine at a fault and after one (60_exceptions.md R104, R105) -/

theorem State.raiseFault_status (s : State) (f : DecodeFault) :
    (s.raiseFault f).status = statusWord false true (DecodeFault.code f) := rfl

theorem engineMove_of_fault {s : State} (hf : s.fault = true) : s.engineMove = .next s := by
  rw [State.engineMove, if_pos hf]

theorem engineMove_of_decode_error {s : State} {f : DecodeFault} (hf : s.fault = false) (hb : s.busy = true)
    (hd : decode s.latch.toWord = .error f) : s.engineMove = .next (s.raiseFault f) := by
  simp [State.engineMove, hf, hb, hd]

theorem step_of_decode_error {s : State} {f : DecodeFault} (hf : s.fault = false) (hb : s.busy = true)
    (hm : s.hostMove = none) (hd : decode s.latch.toWord = .error f) : step s = .next (s.spendWait.raiseFault f) := by
  rw [step_of_hostMove_none hm]
  exact engineMove_of_decode_error (by simpa using hf) (by simpa using hb) (by simpa using hd)

/-- The engine's move never stops: its one arm that could is a command, and every command completes. -/
theorem exists_engineMove_next (s : State) : ∃ t, s.engineMove = .next t := by
  unfold State.engineMove
  split_ifs
  · exact ⟨_, rfl⟩
  · split
    · exact exists_exec_next _ s
    · exact ⟨_, rfl⟩
  · split
    · exact ⟨_, rfl⟩
    · exact ⟨_, rfl⟩

/-- Every host action but reset leaves the status, the descriptor and the latches. -/
theorem hostMove_frame {s t : State} (h : s.hostMove = some t) (hr : s.host.head? ≠ some .reset) :
    t.fault = s.fault ∧ t.cause = s.cause ∧ t.busy = s.busy ∧ t.buf = s.buf ∧ t.latch = s.latch := by
  obtain ⟨rest, hh, -⟩ | ⟨w, rest, -, -, rfl⟩ | ⟨a, v, rest, -, -, rfl⟩ := hostMove_cases h
  · exact absurd (by rw [hh]; rfl) hr
  · exact ⟨rfl, rfl, rfl, rfl, rfl⟩
  · exact ⟨rfl, rfl, rfl, rfl, rfl⟩

/-! ## The statements -/

/-- Settles O13: a fault of decode is the opcode test or the must-be-zero test, and what neither catches is a
command. -/
theorem decodeFaultsExactlyTheReservedWords : Obligations.DecodeFaultsExactlyTheReservedWords := by
  intro w f legal dirty
  have hlegal : (∃ op : Opcode, f.opc = op.code) ↔ legal := exists_eq_code_iff
  have hillegal : decode w = .error .illegalOpcode ↔ ¬legal := by rw [← hlegal]; exact decode_eq_illegalOpcode_iff
  have hreserved : decode w = .error .reservedNonzero ↔ legal ∧ dirty := by
    rw [← hlegal]; exact decode_eq_reservedNonzero_iff_dirty
  refine ⟨hillegal, hreserved, fun ⟨hl, hd⟩ => ?_⟩
  cases hdec : decode w with
  | ok i => exact ⟨i, rfl⟩
  | error e =>
    cases e with
    | illegalOpcode => exact absurd hl (hillegal.mp hdec)
    | reservedNonzero => exact absurd (hreserved.mp hdec).2 hd

/-- Settles O52: the host's moves but reset leave the block, and its engine is stuck. -/
theorem faultedBlockIsStuckUntilReset : Obligations.FaultedBlockIsStuckUntilReset := by
  intro s t hf hr hs
  obtain hm | ⟨-, hm⟩ := step_cases hs
  · obtain ⟨hfault, hcause, hbusy, hbuf, hlatch⟩ := hostMove_frame hm hr
    exact ⟨hfault.trans hf, hcause, hbusy, hbuf, hlatch, fun w => hostMove_port_held hm⟩
  · obtain rfl : s.spendWait = t := by simpa [engineMove_of_fault, hf] using hm
    simp [hf]

/-- Settles O58: the host's move is a next state, and the engine's always is one. -/
theorem noStepEverStops : Obligations.NoStepEverStops := by
  intro s
  cases hm : s.hostMove with
  | some t => exact ⟨t, step_of_hostMove_some hm⟩
  | none => rw [step_of_hostMove_none hm]; exact exists_engineMove_next _

/-- Settles O51: the step is the fault's entry, after a `wait` of the host is spent. -/
theorem decodeFaultIsTaken : Obligations.DecodeFaultIsTaken := by
  intro s f hf hb hm hd
  refine ⟨_, step_of_decode_error hf hb hm hd, rfl, rfl, ?_, ?_, by simp, by simp, by simp, rfl⟩
  · cases f <;> rfl
  · rw [State.raiseFault_status]
    cases f <;> decide

end Sys2Proof.Machine

/-! PROOFS of the statements about 70_reset_and_hazards.md: first the step that takes a reset and the number of write
events of a plot event, of a drawing and of CLEAR, then the settled statements. -/

namespace Sys2Proof.Machine

/-! ## The step that takes a reset (70_reset_and_hazards.md R120, R121) -/

theorem step_of_reset {s : State} {rest : List HostEvent} (h : s.host = .reset :: rest) :
    step s = .next ({ s with host := rest }.takeReset s.latchedWrites) :=
  step_of_hostMove_some (by rw [State.hostMove, h])

theorem State.takeReset_status (s : State) (es : List WriteEvent) : (s.takeReset es).status = 0#32 := by
  change statusWord false false 0 = 0#32
  decide

theorem State.takeReset_mem_of_idle {s : State} (h : s.busy = false) (es : List WriteEvent) :
    (s.takeReset es).mem = s.mem := by
  rw [State.takeReset_mem, h, if_neg Bool.false_ne_true, performAll_nil]

/-- The drawn length of an abandoned prefix counts as far as there are events (log 8). -/
theorem State.takeReset_mem_of_busy {s : State} (h : s.busy = true) (es : List WriteEvent) :
    (s.takeReset es).mem = performAll (es.take (min (Config.abandonedPrefix s.draws) es.length)) s.mem := by
  rw [State.takeReset_mem, h, if_pos rfl, ← List.take_eq_take_min]

theorem State.latchedWrites_of_decode_ok {s : State} {i : Instr} (h : decode s.latch.toWord = .ok i) :
    s.latchedWrites = commandWrites i s := by
  rw [State.latchedWrites, h]

/-! ## How many write events (70_reset_and_hazards.md R128) -/

theorem Descriptor.length_plotWrites (d : Descriptor) (c : BitVec 16) (p : Point) :
    (d.plotWrites c p).length = if d.dropped p then 0 else 4 := by
  cases h : d.dropped p with
  | true => rw [Descriptor.plotWrites_of_dropped h]; rfl
  | false => rw [Descriptor.plotWrites_of_accepted h]; rfl

theorem Descriptor.length_drawWrites (d : Descriptor) (c : BitVec 16) (ps : List Point) :
    (d.drawWrites c ps).length = 4 * (ps.filter fun p => !d.dropped p).length := by
  induction ps with
  | nil => rfl
  | cons p ps ih =>
    rw [Descriptor.drawWrites_cons, List.length_append, ih, Descriptor.length_plotWrites]
    cases h : d.dropped p with
    | true => simp [h]
    | false => simp [h]; omega

theorem Descriptor.length_clearWrites (d : Descriptor) :
    d.clearWrites.length = d.stride.toNat * d.height.toNat := by
  rw [Descriptor.clearWrites_eq_run, List.length_map, List.length_range, Nat.mul_comm]

/-! ## The statements -/

/-- Settles O54: the reset takes the latched command's write events as far as log 8's free length, or all of them where
it is beyond the last. -/
theorem resetWhileBusyLeavesAPrefix : Obligations.ResetWhileBusyLeavesAPrefix := by
  intro s rest i hh hb hd
  refine ⟨_, min (Config.abandonedPrefix s.draws) (commandWrites i s).length, step_of_reset hh,
    Nat.min_le_right _ _, ?_, State.takeReset_busy _ _⟩
  rw [State.latchedWrites_of_decode_ok hd]
  exact State.takeReset_mem_of_busy hb _

/-- Settles O53: the step is the reset event, and an idle block has no pending write event. -/
theorem resetEventClearsTheBlock : Obligations.ResetEventClearsTheBlock := by
  intro s rest hh
  exact ⟨_, step_of_reset hh, State.takeReset_buf _ _, State.takeReset_status _ _, State.takeReset_busy _ _,
    State.takeReset_fault _ _, State.takeReset_cause _ _, State.takeReset_port _ _, State.takeReset_host _ _,
    fun hb => State.takeReset_mem_of_idle hb _⟩

/-- Settles O55: PLOT is one plot event, LINE the plot events of its points, and CLEAR writes each byte of each row
once. -/
theorem writeEventCounts : Obligations.WriteEventCounts := by
  intro s
  refine ⟨fun _ => rfl, fun _ _ _ _ => rfl, s.buf.length_clearWrites, fun x y c => ?_,
    fun x0 y0 x1 y1 c => s.buf.length_drawWrites c _⟩
  rw [commandWrites, Descriptor.length_plotWrites]
  exact ite_eq_or_eq _ 0 4

end Sys2Proof.Machine
